-- ==== Sys2Proof/Word.lean ====
section
/-! DEFINITION. The word types of the engine (10_state, 92_eei_decisions D16): bytes of the two streams and of
`suffix[]`, and 16-bit code values (`c`, `oldcode`, `prefix[]`, `fault_code`). Every quantity is unsigned (R9). -/

namespace Sys2Proof

/-- A byte: 8 bits (R9). -/
abbrev Byte := BitVec 8

/-- A code value after `zext_16` (R49, D16). -/
abbrev Code := BitVec 16

/-- `c[7:0]` (R79, R84). -/
def Code.low (c : Code) : Byte := c.setWidth 8

/-- `zext_16` of a byte: the literal code that stands for it (R32, R64). -/
def Byte.toCode (b : Byte) : Code := b.setWidth 16

end Sys2Proof
end

