-- ==== Sys2Proof/Config.lean ====
section
/-! DEFINITION. The constants of the engine (00_scope R6, R8). None of them is configurable but `REALIGN`, whose two
values are the type `Realign`; the value a run uses is held in the state (log entry 4). No open value of the spec is
needed as an opaque constant: nothing that the spec leaves unspecified is ever read (R29, R72). -/

namespace Sys2Proof

/-- The parameter `REALIGN` (R8, R60, D8): whether the bit cursor skips padding after a CLEAR and a width increase. -/
inductive Realign where
  | none
  | group8
deriving DecidableEq, Repr

namespace Config

/-- `MAGIC0` (R6, R47). -/
abbrev magic0 : Byte := 0x1F#8
/-- `MAGIC1` (R6, R47). -/
abbrev magic1 : Byte := 0x9D#8
/-- `HDR_LEN` (R6): bytes of the header. -/
abbrev hdrLen : Nat := 3
/-- `INIT_BITS` (R6): code width at stream start and after CLEAR. -/
abbrev initBits : BitVec 5 := 9#5
/-- `MIN_BITS_LIMIT` (R6, D4). -/
abbrev minBitsLimit : Nat := 9
/-- `MAX_BITS_LIMIT` (R6). -/
abbrev maxBitsLimit : Nat := 16
/-- `N_LITERALS` (R6): codes below this are literal bytes. -/
abbrev nLiterals : Nat := 256
/-- `CLEAR_CODE` (R6): the CLEAR code when `block_mode = 1`. -/
abbrev clearCode : Code := 256#16
/-- `FIRST_FREE(block_mode)` (R6): the first learnable code. -/
def firstFree (blockMode : Bool) : BitVec 17 := if blockMode then 257#17 else 256#17
/-- `BUF_BYTES` (R8, D2): capacity of the BitReader's buffer. -/
abbrev bufBytes : Nat := 3
/-- One past the last code with storage (R31): storage exists for codes 256..65535. -/
abbrev codeLimit : Nat := 65536
/-- `STACK_DEPTH` (R8, R71, D12): bytes of the expansion stack. -/
abbrev stackDepth : Nat := 65281

end Config
end Sys2Proof
end

