-- ==== Sys2Proof/Syntax.lean ====
section
/-! DEFINITION. The instructions (30_encoding): one constructor per row of spec/opcode_table.json. An instruction is one
item of the input stream (R11): a header byte or a code. Which row a code is depends on the state (R51), so the part of
the state that the decoder reads stands here too, as `DecodeCtx`. -/

namespace Sys2Proof

/-- The Decoder's phases (R19). The reserved encodings 6 and 7 are no value of this type (U9). -/
inductive Phase where
  | header
  | awaitFirst
  | steady
  | cleared
  | done
  | fault
deriving DecidableEq, Repr

/-- The phases in which a code is read (R51, R74). -/
def Phase.readsCode : Phase → Bool
  | .awaitFirst | .steady | .cleared => true
  | .header | .done | .fault => false

/-- Which of the three header bytes comes next: they are selected by position alone (R51). -/
inductive HdrPos where
  | m0
  | m1
  | ctl
deriving DecidableEq, Repr

/-- The rows of the opcode table. Header items carry their byte (HDR.CTL by its fields, R48); a code item carries its
value: the literal's byte where the row fixes bits 15..8 to zero, the 16-bit zero-extension (R49) elsewhere. -/
inductive Instr where
  /-- HDR.M0, format H0 (R75). -/
  | hdrM0 (magic0 : Byte)
  /-- HDR.M1, format H1 (R76). -/
  | hdrM1 (magic1 : Byte)
  /-- HDR.CTL, format HC (R77): `block[7]`, `rsvd[6:5]`, `maxbits[4:0]`. -/
  | hdrCtl (block : Bool) (rsvd : BitVec 2) (maxbits : BitVec 5)
  /-- FIRST (R79): the first code of the stream, a literal. -/
  | first (v : Byte)
  /-- BAD.FIRST (R80): a first code that is not a literal. -/
  | badFirst (c : Code)
  /-- CLR (R81): the CLEAR code. -/
  | clr
  /-- PLIT (R82): a literal right after a CLEAR. -/
  | plit (v : Byte)
  /-- BAD.PCLR (R83): neither a literal nor CLEAR right after a CLEAR. -/
  | badPclr (c : Code)
  /-- LIT (R84): a literal in steady state. -/
  | lit (v : Byte)
  /-- REF (R85): a learned code. -/
  | ref (c : Code)
  /-- KWK (R86): the self-referential code. -/
  | kwk (c : Code)
  /-- BAD.RANGE (R87): a code beyond the next learnable one. -/
  | badRange (c : Code)
  /-- END (R90): the read of a code finds the end of the stream. -/
  | endStream
deriving DecidableEq, Repr

/-- What classification reads (R51) and what cutting a code out of bytes reads (R49): the header position, the phase,
`block_mode`, `next_free`, the width `n_bits` and the bit offset of the cursor. -/
structure DecodeCtx where
  phase     : Phase
  hdrPos    : HdrPos
  blockMode : Bool
  nextFree  : Option (BitVec 17)
  nBits     : BitVec 5
  bitOff    : BitVec 3
deriving DecidableEq, Repr

end Sys2Proof
end

