-- ==== Sys2Proof/WellFormed.lean ====
section
/-! DEFINITION. Well-formed instructions: the operand ranges of the opcode table's rows, and the rows' conditions on the
state (30_encoding R51), stated row by row and not by running the decoder. -/

namespace Sys2Proof

/-- The operand range of each row, whatever the state. A header byte may hold any value: a wrong magic or `maxbits` is
judged by HDR.CTL's meaning (R77), it is not another row. -/
def Instr.WellFormed : Instr → Bool
  | .hdrM0 _ | .hdrM1 _ | .hdrCtl _ _ _ => true
  | .first _ | .plit _ | .lit _ | .clr | .endStream => true
  | .badFirst c => decide (Config.nLiterals ≤ c.toNat)
  | .badPclr c => decide (257 ≤ c.toNat)
  | .ref c => decide (Config.nLiterals ≤ c.toNat)
  | .kwk c => decide (Config.nLiterals ≤ c.toNat)
  | .badRange c => decide (Config.nLiterals ≤ c.toNat)

/-- The 16-bit zero-extension of a code item's value (R49). Header items and END are no codes. -/
def Instr.value : Instr → Option Code
  | .hdrM0 _ | .hdrM1 _ | .hdrCtl _ _ _ | .endStream => none
  | .first v | .plit v | .lit v => some v.toCode
  | .clr => some Config.clearCode
  | .badFirst c | .badPclr c | .ref c | .kwk c | .badRange c => some c

/-- A legal code width (R58: `w`, 9..16). -/
def DecodeCtx.widthOk (ctx : DecodeCtx) : Bool :=
  decide (Config.minBitsLimit ≤ ctx.nBits.toNat) && decide (ctx.nBits.toNat ≤ Config.maxBitsLimit)

/-- `c` is the CLEAR code under `blockMode` (R32, R51). -/
def isClear (blockMode : Bool) (c : Code) : Bool := blockMode && decide (c = Config.clearCode)

/-- The code `c` fits the width in force (R49). -/
def DecodeCtx.fits (ctx : DecodeCtx) (c : Code) : Bool := decide (c.toNat < 2 ^ ctx.nBits.toNat)

/-- The condition column of the opcode table: which instructions a stream can hold in this state (R51). -/
def DecodeCtx.admits (ctx : DecodeCtx) : Instr → Bool
  | .hdrM0 _ => decide (ctx.phase = .header) && decide (ctx.hdrPos = .m0)
  | .hdrM1 _ => decide (ctx.phase = .header) && decide (ctx.hdrPos = .m1)
  | .hdrCtl _ _ _ => decide (ctx.phase = .header) && decide (ctx.hdrPos = .ctl)
  | .first _ => decide (ctx.phase = .awaitFirst)
  | .badFirst c => decide (ctx.phase = .awaitFirst) && decide (256 ≤ c.toNat) && ctx.fits c
  | .clr => ctx.blockMode && (decide (ctx.phase = .steady) || decide (ctx.phase = .cleared))
  | .plit _ => decide (ctx.phase = .cleared)
  | .badPclr c => decide (ctx.phase = .cleared) && decide (257 ≤ c.toNat) && ctx.fits c
  | .lit _ => decide (ctx.phase = .steady)
  | .ref c =>
    match ctx.nextFree with
    | none => false
    | some nf =>
      decide (ctx.phase = .steady) && decide ((Config.firstFree ctx.blockMode).toNat ≤ c.toNat)
        && decide (c.toNat < nf.toNat) && ctx.fits c
  | .kwk c =>
    match ctx.nextFree with
    | none => false
    | some nf =>
      decide (ctx.phase = .steady) && decide ((Config.firstFree ctx.blockMode).toNat ≤ c.toNat)
        && decide (c.toNat = nf.toNat) && ctx.fits c
  | .badRange c =>
    match ctx.nextFree with
    | none => false
    | some nf =>
      decide (ctx.phase = .steady) && decide ((Config.firstFree ctx.blockMode).toNat ≤ c.toNat)
        && decide (nf.toNat < c.toNat) && ctx.fits c
  | .endStream => ctx.phase.readsCode

end Sys2Proof
end

