-- ==== Sys2Proof/Decode.lean ====
section
/-! DEFINITION. The decoder and, after it, the encoder (30_encoding R46 to R51, 40_bitreader R58). Decoding is total: a
case that no row of R51 covers is refused by name (`DecodeError`). A code's row depends on the state, which the decoder
takes as a `DecodeCtx`. -/

namespace Sys2Proof

/-- Why the decoder gives no instruction. None of these arises in a run from reset (log entry 14). -/
inductive DecodeError where
  /-- A header byte is asked of an empty byte list. -/
  | noHeaderByte
  /-- No code is read in this phase (R51, R92). -/
  | noCodeRead
  /-- The code width is outside 9..16 (R14, R58). -/
  | badWidth
  /-- A code is compared with `next_free` while `next_free` is UNDEF (R13, R15). -/
  | undefNextFree
  /-- Code 256 in `CLEARED` without block mode: R51 has no row for it, since `CLEARED` needs block mode (R73). -/
  | clearedWithoutBlock
deriving DecidableEq, Repr

/-! ## The fields of the formats -/

/-- HDR.CTL from its byte (R48): bit 7, bits 6..5, bits 4..0. -/
def decodeCtl (b : Byte) : Instr :=
  .hdrCtl (b.getLsbD 7) (b.extractLsb' 5 2) (b.extractLsb' 0 5)

/-- A header byte, selected by position alone (R51). -/
def decodeHeader (p : HdrPos) (b : Byte) : Instr :=
  match p with
  | .m0 => .hdrM0 b
  | .m1 => .hdrM1 b
  | .ctl => decodeCtl b

/-- Byte `i` of a buffer, an absent byte counted as 0 (R49, R58). -/
def bufByte (bytes : List Byte) (i : Nat) : Byte := bytes.getD i 0#8

/-- `buf[0] | buf[1] << 8 | buf[2] << 16`, a 24-bit value (R58 (b)). -/
def window (bytes : List Byte) : BitVec 24 :=
  (bufByte bytes 0).setWidth 24 ||| ((bufByte bytes 1).setWidth 24 <<< 8) ||| ((bufByte bytes 2).setWidth 24 <<< 16)

/-- `(window >> bit_off) & (2^w − 1)`, zero-extended to 16 bits (R49, R58, R78). -/
def codeValue (w off : Nat) (bytes : List Byte) : Code :=
  ((window bytes >>> off) &&& BitVec.ofNat 24 (2 ^ w - 1)).setWidth 16

/-- The unconsumed bits of a buffer (R55). -/
def availBits (bytes : List Byte) (off : Nat) : Nat := 8 * bytes.length - off

/-! ## Classification -/

/-- The classification of a code in phase `STEADY`, in the order of R51 and R78. -/
def classifySteady (blockMode : Bool) (nextFree : Option (BitVec 17)) (c : Code) : Except DecodeError Instr :=
  if isClear blockMode c then .ok .clr
  else if c.toNat < Config.nLiterals then .ok (.lit c.low)
  else
    match nextFree with
    | none => .error .undefNextFree
    | some nf =>
      if c.toNat < nf.toNat then .ok (.ref c)
      else if c.toNat = nf.toNat then .ok (.kwk c)
      else .ok (.badRange c)

/-- The classification of a code in phase `CLEARED` (R51, C2). -/
def classifyCleared (blockMode : Bool) (c : Code) : Except DecodeError Instr :=
  if isClear blockMode c then .ok .clr
  else if c.toNat < Config.nLiterals then .ok (.plit c.low)
  else if c = Config.clearCode then .error .clearedWithoutBlock
  else .ok (.badPclr c)

/-- The classification of a code in phase `AWAIT_FIRST` (R51, R101: CLEAR is not accepted as a first code). -/
def classifyFirst (c : Code) : Except DecodeError Instr :=
  if c.toNat < Config.nLiterals then .ok (.first c.low) else .ok (.badFirst c)

/-- `classify(phase, block_mode, next_free, c)` (R51, R78). -/
def classify (ctx : DecodeCtx) (c : Code) : Except DecodeError Instr :=
  match ctx.phase with
  | .awaitFirst => classifyFirst c
  | .steady => classifySteady ctx.blockMode ctx.nextFree c
  | .cleared => classifyCleared ctx.blockMode c
  | .header | .done | .fault => .error .noCodeRead

/-- The instruction at the head of `bytes`, which are the unconsumed bytes of the input up to a clean end of stream, the
first of them consumed up to `bitOff` bits. A read that finds fewer bits than a code needs is END (R51, R62). -/
def decode (ctx : DecodeCtx) (bytes : List Byte) : Except DecodeError Instr :=
  match ctx.phase with
  | .header =>
    match bytes with
    | [] => .error .noHeaderByte
    | b :: _ => .ok (decodeHeader ctx.hdrPos b)
  | .awaitFirst | .steady | .cleared =>
    if ctx.widthOk then
      if availBits bytes ctx.bitOff.toNat < ctx.nBits.toNat then .ok .endStream
      else classify ctx (codeValue ctx.nBits.toNat ctx.bitOff.toNat bytes)
    else .error .badWidth
  | .done | .fault => .error .noCodeRead

/-! ## The encoder -/

/-- HDR.CTL's byte from its fields (R48). -/
def encodeCtl (block : Bool) (rsvd : BitVec 2) (maxbits : BitVec 5) : Byte :=
  ((BitVec.ofBool block).setWidth 8 <<< 7) ||| (rsvd.setWidth 8 <<< 5) ||| maxbits.setWidth 8

/-- The instruction's row in the opcode table's numbering: how many bits, and their value (a code as its 16-bit
zero-extension). END has no bits. -/
def Instr.encode : Instr → Nat × Nat
  | .hdrM0 b => (8, b.toNat)
  | .hdrM1 b => (8, b.toNat)
  | .hdrCtl block rsvd maxbits => (8, (encodeCtl block rsvd maxbits).toNat)
  | .first v => (16, v.toNat)
  | .badFirst c => (16, c.toNat)
  | .clr => (16, Config.clearCode.toNat)
  | .plit v => (16, v.toNat)
  | .badPclr c => (16, c.toNat)
  | .lit v => (16, v.toNat)
  | .ref c => (16, c.toNat)
  | .kwk c => (16, c.toNat)
  | .badRange c => (16, c.toNat)
  | .endStream => (0, 0)

/-- A `w`-bit code laid at bit offset `off`: `ceil((off + w) / 8)` bytes, least significant bit first (R39, R49). The
bits around the code are zero. -/
def packCode (w off : Nat) (c : Code) : List Byte :=
  let x : BitVec 24 := c.setWidth 24 <<< off
  [x.extractLsb' 0 8, x.extractLsb' 8 8, x.extractLsb' 16 8].take ((off + w + 7) / 8)

/-- The bytes of the input that hold the instruction in this state (R46, R53). -/
def encode (ctx : DecodeCtx) : Instr → List Byte
  | .hdrM0 b => [b]
  | .hdrM1 b => [b]
  | .hdrCtl block rsvd maxbits => [encodeCtl block rsvd maxbits]
  | .first v | .plit v | .lit v => packCode ctx.nBits.toNat ctx.bitOff.toNat v.toCode
  | .clr => packCode ctx.nBits.toNat ctx.bitOff.toNat Config.clearCode
  | .badFirst c | .badPclr c | .ref c | .kwk c | .badRange c => packCode ctx.nBits.toNat ctx.bitOff.toNat c
  | .endStream => []

/-! ## The opcode table's words

A word of the opcode table names no state, so it is read in one fixed context (log entry 19): an 8-bit word is the header
byte whose magic value it has, else the control byte; a 16-bit word is a whole 16-bit code in phase `STEADY`, block mode,
`next_free = 258`; no bits at all is the end of the stream. -/

/-- The context a table word of `nbits` bits is read in. -/
def tableCtx (nbits w : Nat) : Option DecodeCtx :=
  let pos : HdrPos := if w % 256 = 0x1F then .m0 else if w % 256 = 0x9D then .m1 else .ctl
  if nbits = 8 then
    some { phase := .header, hdrPos := pos, blockMode := false, nextFree := none, nBits := 9#5, bitOff := 0#3 }
  else if nbits = 16 ∨ nbits = 0 then
    some { phase := .steady, hdrPos := .m0, blockMode := true, nextFree := some 258#17, nBits := 16#5, bitOff := 0#3 }
  else none

/-- The bytes a table word of `nbits` bits occupies in the input: the first byte holds bits 7..0. -/
def tableBytes (nbits w : Nat) : List Byte :=
  if nbits = 8 then [BitVec.ofNat 8 w]
  else if nbits = 16 then [BitVec.ofNat 8 w, BitVec.ofNat 8 (w / 256)]
  else []

/-- The instruction the decoder reads from a word of the opcode table. -/
def decodeTableWord (nbits w : Nat) : Option Instr :=
  match tableCtx nbits w with
  | none => none
  | some ctx =>
    match decode ctx (tableBytes nbits w) with
    | .ok i => some i
    | .error _ => none

end Sys2Proof
end

