-- ==== Sys2Proof/Machine/State.lean ====
section
/-! DEFINITION. The state of the engine as plain data (10_state R12 to R29, 20_memory R30 to R38), the reasons a step can
stop, and the state after hardware reset. UNDEF (R13) is `none`: the spec's own absent value, never a number. -/

namespace Sys2Proof.Machine

/-- `status`, the outcome register (R20). The reserved encodings 3..7 are no value of this type (U9). -/
inductive Status where
  | running
  | doneOk
  | doneTruncated
  | errFormatShort
  | errFormatMagic
  | errFormatMaxbits
  | errCorruptFirst
  | errCorruptRange
  | errCorruptPclr
  | errCorruptChain
  | errSourceIo
deriving DecidableEq, Repr

/-- `src`: what the source has said so far (R21). -/
inductive Src where
  | opened
  | eos
  | err
deriving DecidableEq, Repr

/-- The terminator `T` of the input (R36). -/
inductive Terminator where
  | eos
  | err
deriving DecidableEq, Repr

/-- One CodeTable entry: `(prefix[c], suffix[c])` (R31). -/
structure Entry where
  pfx : Code
  sfx : Byte
deriving DecidableEq, Repr

/-- The code space (R30, R31): pairs of a code and its entry, in one canonical form (`Memory.wf`, Machine/CodeTable.lean).
A code that is not listed holds no value: its contents are unspecified (R29, U5) and reading it stops (log entry 7). -/
abbrev Memory := List (Nat × Entry)

/-- The registers that can be UNDEF when a rule reads them (R13). -/
inductive UndefReg where
  | nextFree
  | oldcode
  | finchar
  | headerByte
deriving DecidableEq, Repr

/-- Why the model stops. The engine's own exceptions are not here: it takes them (R100). Every reason is a stop of the
model where the rules give no effect, so each is safe; none arises in a run from reset. -/
inductive Fault where
  /-- A meaning reads a register that is UNDEF (R13: "it must fault, not pick a value"). Raised by HDR.CTL, LIT, REF, KWK. Safe. -/
  | undefRead (r : UndefReg)
  /-- LEARN writes a code that has no storage: below 256 or above 65535 (R31). Raised by LIT, REF, KWK. Safe. -/
  | noStorage (c : Nat)
  /-- LOOKUP_CHAIN reads an entry that nothing has written (U5). Raised by REF, KWK. Safe. -/
  | unwrittenEntry (c : Code)
  /-- The decoder gives no instruction for what was fetched. Raised by the step. Safe. -/
  | undecodable (e : DecodeError)
  /-- A loop of the rules passed its bound (R58 (c), R60, R68, R74). Raised by the step, CLR, LIT, REF, KWK. Safe. -/
  | loopBound
deriving DecidableEq, Repr

/-- Why an instruction has no meaning. -/
inductive Refusal where
  /-- `exec`'s arm for an instruction that is not modelled. No arm uses it. Safe. -/
  | notModelled (mnemonic : String)
deriving DecidableEq, Repr

/-- The state: the engine's registers, hidden state and table; the working values of a step, none between steps (R27);
and the environment of a run (R12), which no engine rule but `SrcNext` and `Emit` changes. -/
structure State where
  /-- `n_bits`, 5 bits (R14). -/
  nBits : BitVec 5
  /-- `next_free`, 17 bits or UNDEF (R15). -/
  nextFree : Option (BitVec 17)
  /-- `max_bits`, 5 bits (R16). -/
  maxBits : BitVec 5
  /-- `block_mode`, 1 bit (R17). -/
  blockMode : Bool
  /-- `oldcode`, 16 bits or UNDEF (R18). -/
  oldcode : Option Code
  /-- `finchar`, 8 bits or UNDEF (R18). -/
  finchar : Option Byte
  /-- `phase`, 3 bits (R19). -/
  phase : Phase
  /-- `status`, 4 bits (R20). -/
  status : Status
  /-- `warn_trunc`, 1 bit (R21). -/
  warnTrunc : Bool
  /-- `src`, 2 bits (R21). -/
  src : Src
  /-- `pos`, the bit cursor, a natural number (R22, D15). -/
  pos : Nat
  /-- `buf[0] .. buf[buf_len − 1]`, oldest byte first; `buf_len` is the length (R23). -/
  buf : List Byte
  /-- `bit_off`, 3 bits (R23). -/
  bitOff : BitVec 3
  /-- `grp_cnt`, 3 bits (R24). -/
  grpCnt : BitVec 3
  /-- `fault_code`, 16 bits or UNDEF (R25). -/
  faultCode : Option Code
  /-- `fault_pos`, as `pos`, or UNDEF (R25). -/
  faultPos : Option Nat
  /-- The bytes on the expansion stack, top first; `sp` is the length (R26, R34). -/
  stack : List Byte
  /-- The CodeTable (R31). -/
  table : Memory
  /-- Working value `h0` of the header step (R27). -/
  h0 : Option Byte
  /-- Working value `h1` of the header step (R27). -/
  h1 : Option Byte
  /-- Working value `p0` of a code step: `pos` when the code's read began (R27). -/
  p0 : Option Nat
  /-- The parameter `REALIGN`, constant for a run (R8, D8). -/
  realign : Realign
  /-- The level of the reset line at this step (R35, R113). -/
  rst : Bool
  /-- The bytes the source has not delivered yet (R36). -/
  input : List Byte
  /-- What the source answers after its last byte (R36). -/
  term : Terminator
  /-- How many requests have reached the source (R37, R128). -/
  requests : Nat
  /-- `OUT`, the bytes emitted, in emission order (R38). -/
  out : List Byte
deriving DecidableEq, Repr

/-- The state right after hardware reset (R29, R113), with nothing emitted, an empty input that ends cleanly (log entry
3) and the spec's default `REALIGN` (R8). -/
def State.reset : State where
  nBits := Config.initBits
  nextFree := none
  maxBits := 0#5
  blockMode := false
  oldcode := none
  finchar := none
  phase := .header
  status := .running
  warnTrunc := false
  src := .opened
  pos := 0
  buf := []
  bitOff := 0#3
  grpCnt := 0#3
  faultCode := none
  faultPos := none
  stack := []
  table := []
  h0 := none
  h1 := none
  p0 := none
  realign := .none
  rst := false
  input := []
  term := .eos
  requests := 0
  out := []

end Sys2Proof.Machine
end

