-- ==== Sys2Proof/Machine/Ops.lean ====
section
/-! DEFINITION. The named operations over the streams, the stack and the code space's storage (20_memory R31, R34, R36,
R38), trap entry (60_exceptions R100), hardware reset (R113), and the read-only ports (R28, R35). -/

namespace Sys2Proof.Machine

/-- How an operation inside a step ends: it answers a value and the step goes on; it has raised a fatal exception, and
no later statement of the step runs (R100); or the model stops. -/
inductive Flow (α : Type) where
  | ok (a : α) (s : State)
  | raised (s : State)
  | stop (f : Fault)
deriving Repr

/-- "Then": what follows runs only if nothing was raised (R100). -/
def Flow.andThen {α β : Type} (x : Flow α) (k : α → State → Flow β) : Flow β :=
  match x with
  | .ok a s => k a s
  | .raised s => .raised s
  | .stop f => .stop f

/-- The end of a meaning: an exception that was taken is a next state like any other. -/
def Flow.toOutcome {α : Type} (x : Flow α) : Host.Outcome State Fault Refusal :=
  match x with
  | .ok _ s => .next s
  | .raised s => .next s
  | .stop f => .fault f

/-! ## Trap entry -/

/-- `raise X(status_code, fc, fp)` (R100): the same for every fatal exception. A latch for which nothing is given stays
as it is. The wait for the sink has no effect here: every byte of `out` has been taken (R38). -/
def raise (st : Status) (fc : Option Code) (fp : Option Nat) (s : State) : State :=
  { s with
    status := st
    faultCode := fc.or s.faultCode
    faultPos := fp.or s.faultPos
    stack := []
    phase := .fault }

/-- `raise CorruptStreamError(code, c, p0)` (R25, R97): the latches get the code and the bit index of the first bit of
the code being processed. -/
def raiseCorrupt (st : Status) (c : Code) (s : State) : State := raise st (some c) s.p0 s

/-! ## The input stream -/

/-- What the source answers to a request (R36). -/
inductive SrcAnswer where
  | byte (b : Byte)
  | eos
  | err
deriving DecidableEq, Repr

/-- The answer taken from the source's pins when several are 1: `in_err`, then `in_eos`, then `in_valid` (R35, D10). -/
def SrcAnswer.ofPins (inErr inEos inValid : Bool) (inData : Byte) : Option SrcAnswer :=
  if inErr then some .err
  else if inEos then some .eos
  else if inValid then some (.byte inData)
  else none

/-- `SrcNext()` (R36): end of stream is sticky, the source is not asked again after it. -/
def srcNext (s : State) : SrcAnswer × State :=
  if s.src = .eos then (.eos, s)
  else
    match s.input with
    | b :: rest => (.byte b, { s with input := rest, requests := s.requests + 1 })
    | [] =>
      match s.term with
      | .eos => (.eos, { s with src := .eos, requests := s.requests + 1 })
      | .err => (.err, { s with src := .err, requests := s.requests + 1 })

/-! ## The output stream -/

/-- `Emit(b)` (R38). -/
def emit (b : Byte) (s : State) : State := { s with out := s.out ++ [b] }

/-! ## The expansion stack -/

/-- `Push(b)` (R34); on a full stack it raises ERR_CORRUPT_CHAIN with the code `cur` being walked (R68, log entry 13). -/
def push (cur : Code) (b : Byte) (s : State) : Flow Unit :=
  if Config.stackDepth ≤ s.stack.length then .raised (raiseCorrupt .errCorruptChain cur s)
  else .ok () { s with stack := b :: s.stack }

/-- `Pop()` (R34); it is only executed when `sp > 0`, and answers nothing otherwise. -/
def pop (s : State) : Option (Byte × State) :=
  match s.stack with
  | [] => none
  | b :: rest => some (b, { s with stack := rest })

/-- The loop of `EMIT_STACK` (R91), at most `fuel` times. -/
def emitStackLoop : Nat → State → State
  | 0, s => s
  | n + 1, s =>
    match pop s with
    | none => s
    | some (b, s1) => emitStackLoop n (emit b s1)

/-- `EMIT_STACK()` (R91): `while sp > 0: Emit(Pop())`. -/
def emitStack (s : State) : State := emitStackLoop s.stack.length s

/-! ## The code space's storage -/

/-- Storage exists for this code (R31). -/
def hasStorage (c : Nat) : Bool := decide (Config.nLiterals ≤ c) && decide (c < Config.codeLimit)

/-- The entry at code `c`, if something has been written there (R31, U5). -/
def Memory.read (m : Memory) (c : Nat) : Option Entry :=
  match m with
  | [] => none
  | (k, e) :: rest => if k = c then some e else Memory.read rest c

/-- Write the entry at code `c`, keeping the codes rising (R31). -/
def Memory.write (m : Memory) (c : Nat) (e : Entry) : Memory :=
  match m with
  | [] => [(c, e)]
  | (k, x) :: rest =>
    if c < k then (c, e) :: (k, x) :: rest
    else if c = k then (c, e) :: rest
    else (k, x) :: Memory.write rest c e

/-- The codes rise strictly from `lo` and all have storage. -/
def Memory.wfFrom (lo : Nat) (m : Memory) : Bool :=
  match m with
  | [] => true
  | (k, _) :: rest => decide (lo ≤ k) && decide (k < Config.codeLimit) && Memory.wfFrom (k + 1) rest

/-- The canonical form: codes strictly rising, each with storage (R31). An unlisted code reads as no value, so no entry
equals what an unlisted code reads as. -/
def Memory.wf (m : Memory) : Bool := Memory.wfFrom Config.nLiterals m

/-! ## Hardware reset -/

/-- `rst` (R113): every register takes its reset value (R29); what the environment holds stays as it is: bytes emitted
stay emitted, bytes taken are lost. Contents the spec leaves unspecified hold no value (log entry 9). -/
def hwReset (s : State) : State :=
  { State.reset with
    realign := s.realign
    rst := s.rst
    input := s.input
    term := s.term
    requests := s.requests
    out := s.out }

/-! ## The read-only ports -/

/-- The encoding of `phase` (R19). -/
def phaseBits : Phase → BitVec 3
  | .header => 0#3
  | .awaitFirst => 1#3
  | .steady => 2#3
  | .cleared => 3#3
  | .done => 4#3
  | .fault => 5#3

/-- The encoding of `status` (R20). -/
def statusBits : Status → BitVec 4
  | .running => 0#4
  | .doneOk => 1#4
  | .doneTruncated => 2#4
  | .errFormatShort => 8#4
  | .errFormatMagic => 9#4
  | .errFormatMaxbits => 10#4
  | .errCorruptFirst => 11#4
  | .errCorruptRange => 12#4
  | .errCorruptPclr => 13#4
  | .errCorruptChain => 14#4
  | .errSourceIo => 15#4

/-- The encoding of `src` (R21). -/
def srcBits : Src → BitVec 2
  | .opened => 0#2
  | .eos => 1#2
  | .err => 2#2

/-- The values on the status ports (R28, R35). -/
structure Ports where
  status    : BitVec 4
  phase     : BitVec 3
  warnTrunc : BitVec 1
  src       : BitVec 2
  maxBits   : BitVec 5
  blockMode : BitVec 1
  nBits     : BitVec 5
  nextFree  : Option (BitVec 17)
  pos       : Nat
  faultCode : Option Code
  faultPos  : Option Nat
deriving DecidableEq, Repr

/-- The read-only copies of the registers the host sees (R28, R35). Reading them has no side effect (R28). -/
def State.ports (s : State) : Ports where
  status := statusBits s.status
  phase := phaseBits s.phase
  warnTrunc := BitVec.ofBool s.warnTrunc
  src := srcBits s.src
  maxBits := s.maxBits
  blockMode := BitVec.ofBool s.blockMode
  nBits := s.nBits
  nextFree := s.nextFree
  pos := s.pos
  faultCode := s.faultCode
  faultPos := s.faultPos

end Sys2Proof.Machine
end

