-- ==== Sys2Proof/Machine/Flags.lean ====
section
/-! DEFINITION. The engine's flags and tests: the truncated-tail test that `warn_trunc` records (40_bitreader R61), the
width-growth test (42_decoder R89), and the classes of `status` (10_state R20, 60_exceptions R97). -/

namespace Sys2Proof.Machine

/-- `EOS_CHECK()` (R61, D9): more than one stray byte, or one whose unconsumed bits are not all zero. -/
def eosCheck (s : State) : Bool :=
  match s.buf with
  | [] => false
  | [b] => decide (b >>> s.bitOff.toNat ≠ 0#8)
  | _ :: _ :: _ => true

/-- The test of `GROW` (R89): `next_free > 2^n_bits − 1 and n_bits < max_bits`. -/
def growDue (nBits maxBits : BitVec 5) (nextFree : BitVec 17) : Bool :=
  decide (2 ^ nBits.toNat - 1 < nextFree.toNat) && decide (nBits.toNat < maxBits.toNat)

/-- `status ≥ 8`: bit 3 set means fatal (R20). -/
def Status.fatal (st : Status) : Bool := decide (8 ≤ (statusBits st).toNat)

/-- `status ∈ {1, 2}`: the decode ended without a fatal exception (R20). -/
def Status.finished (st : Status) : Bool := decide (st = .doneOk) || decide (st = .doneTruncated)

end Sys2Proof.Machine
end

