-- ==== Sys2Proof/Machine/Operands.lean ====
section
/-! DEFINITION. The BitReader (40_bitreader): how an item of the input is fetched, cut out of the buffer and consumed.
Its buffer is `buf`, its cursor `bit_off` and `pos`. -/

namespace Sys2Proof.Machine

/-- `AVAIL()` (R55): the buffered, unconsumed bits. -/
def avail (s : State) : Nat := availBits s.buf s.bitOff.toNat

/-- What `FETCH` answers (R56). -/
inductive FetchAns where
  | ok
  | eos
  | err
deriving DecidableEq, Repr

/-- `FETCH()` (R56): one more byte behind the bytes already buffered. -/
def fetchByte (s : State) : FetchAns × State :=
  match srcNext s with
  | (.byte b, s1) => (.ok, { s1 with buf := s1.buf ++ [b] })
  | (.eos, s1) => (.eos, s1)
  | (.err, s1) => (.err, s1)

/-- `HDR_FETCH()` (R57): a header byte straight from the source; the BitReader's registers are untouched. -/
def hdrFetch (s : State) : SrcAnswer × State := srcNext s

/-- `ADVANCE(n)` (R59). -/
def advance (n : Nat) (s : State) : State :=
  let t := s.bitOff.toNat + n
  { s with
    buf := s.buf.drop (t / 8)
    bitOff := BitVec.ofNat 3 (t % 8)
    pos := s.pos + n }

/-- The loop of `READ_CODE(w)` (R58): fetch while fewer than `w` bits are buffered; at most `fuel` fetches. -/
def fill (fuel w : Nat) (s : State) : Flow FetchAns :=
  if w ≤ avail s then .ok .ok s
  else
    match fuel with
    | 0 => .stop .loopBound
    | n + 1 =>
      match fetchByte s with
      | (.ok, s1) => fill n w s1
      | (.eos, s1) => .ok .eos s1
      | (.err, s1) => .ok .err s1

/-- What `READ_CODE` answers (R58). -/
inductive ReadAns where
  | code (v : Code)
  | eos
  | err
deriving DecidableEq, Repr

/-- `if REALIGN = GROUP8: grp_cnt <- (grp_cnt + 1) mod 8` (R24, R58). -/
def countCode (s : State) : State :=
  match s.realign with
  | .none => s
  | .group8 => { s with grpCnt := s.grpCnt + 1#3 }

/-- `READ_CODE(w)` (R58). The loop runs at most `BUF_BYTES` times (R58 (c)). -/
def readCode (w : Nat) (s : State) : Flow ReadAns :=
  (fill Config.bufBytes w s).andThen fun a s1 =>
    match a with
    | .ok => .ok (.code (codeValue w s1.bitOff.toNat s1.buf)) (countCode (advance w s1))
    | .eos => .ok .eos s1
    | .err => .ok .err s1

/-- The loop of `REALIGN_SKIP` (R60): skip `n` bits, fetching a byte whenever the buffer is empty. -/
def skipBits (fuel n : Nat) (s : State) : Flow FetchAns :=
  if n = 0 then .ok .ok s
  else
    match fuel with
    | 0 => .stop .loopBound
    | k + 1 =>
      if avail s = 0 then
        match fetchByte s with
        | (.ok, s1) => skipBits k n s1
        | (.eos, s1) => .ok .eos s1
        | (.err, s1) => .ok .err s1
      else
        let t := min n (avail s)
        skipBits k (n - t) (advance t s)

/-- The bits `REALIGN_SKIP(w_old)` skips under `GROUP8`: `((8 − grp_cnt) mod 8) · w_old` (R60). -/
def skipLength (grpCnt : BitVec 3) (wOld : Nat) : Nat := ((8 - grpCnt.toNat) % 8) * wOld

/-- `REALIGN_SKIP(w_old)` (R60). Each turn of its loop takes a byte into an empty buffer or skips a bit at least, so
`2 n + 1` turns are enough. -/
def realignSkip (wOld : Nat) (s : State) : Flow FetchAns :=
  match s.realign with
  | .none => .ok .ok s
  | .group8 =>
    let n := skipLength s.grpCnt wOld
    skipBits (2 * n + 1) n { s with grpCnt := 0#3 }

end Sys2Proof.Machine
end

