-- ==== Sys2Proof/Machine/CodeTable.lean ====
section
/-! DEFINITION. The CodeTable (41_codetable), and the two operations that end a steady code step (42_decoder R88, R89). -/

namespace Sys2Proof.Machine

/-- `INIT()` (R64): the literals are wired, so only `next_free` is written. -/
def initTable (s : State) : State := { s with nextFree := some (Config.firstFree s.blockMode) }

/-- `RESET()` (R70): the arrays are not erased. -/
def resetTable (s : State) : State := { s with nextFree := some 257#17 }

/-- `c < 256`: a literal code (R32). -/
def isLiteral (c : Code) : Bool := decide (c.toNat < Config.nLiterals)

/-- `VALID(c)` (R65). -/
def valid (blockMode : Bool) (nextFree : BitVec 17) (c : Code) : Bool :=
  isLiteral c || (decide ((Config.firstFree blockMode).toNat ≤ c.toNat) && decide (c.toNat < nextFree.toNat))

/-- `CHAIN_GUARD(cur)` (R68) for `cur ≥ 256`: the three tests in their order. It answers the entry it has looked at. -/
def chainGuard (cur : Code) (s : State) : Flow Entry :=
  match s.nextFree with
  | none => .stop (.undefRead .nextFree)
  | some nf =>
    if valid s.blockMode nf cur then
      match s.table.read cur.toNat with
      | none => .stop (.unwrittenEntry cur)
      | some e =>
        if cur.toNat ≤ e.pfx.toNat then .raised (raiseCorrupt .errCorruptChain cur s)
        else if Config.stackDepth ≤ s.stack.length then .raised (raiseCorrupt .errCorruptChain cur s)
        else .ok e s
    else .raised (raiseCorrupt .errCorruptChain cur s)

/-- The loop of `LOOKUP_CHAIN` (R67), at most `fuel` codes above the literal. -/
def lookupLoop (fuel : Nat) (cur : Code) (s : State) : Flow Byte :=
  if isLiteral cur then (push cur cur.low s).andThen fun _ s1 => .ok cur.low s1
  else
    match fuel with
    | 0 => .stop .loopBound
    | n + 1 =>
      (chainGuard cur s).andThen fun e s1 =>
        (push cur e.sfx s1).andThen fun _ s2 => lookupLoop n e.pfx s2

/-- `LOOKUP_CHAIN(c)` (R67): pushes `expand(c)`, last byte first, and answers its first byte. The guard makes the codes
walked strictly decreasing (R68), so `c` itself bounds their number. -/
def lookupChain (c : Code) (s : State) : Flow Byte := lookupLoop c.toNat c s

/-- `expand(c)` (R66) along at most `fuel` prefixes; no value where an entry of the chain holds none. -/
def expandFuel (fuel : Nat) (m : Memory) (c : Code) : Option (List Byte) :=
  if isLiteral c then some [c.low]
  else
    match fuel with
    | 0 => none
    | n + 1 =>
      match m.read c.toNat with
      | none => none
      | some e =>
        match expandFuel n m e.pfx with
        | none => none
        | some bs => some (bs ++ [e.sfx])

/-- `expand(c)` (R66), the mathematical function the hardware computes with `LOOKUP_CHAIN`. -/
def expand (m : Memory) (c : Code) : Option (List Byte) := expandFuel c.toNat m c

/-- `LEARN(p, s)` (R69): a no-op at capacity `2^max_bits`. -/
def learn (p : Code) (b : Byte) (s : State) : Flow Unit :=
  match s.nextFree with
  | none => .stop (.undefRead .nextFree)
  | some nf =>
    if nf.toNat < 2 ^ s.maxBits.toNat then
      if hasStorage nf.toNat then
        .ok () { s with table := s.table.write nf.toNat { pfx := p, sfx := b }, nextFree := some (nf + 1#17) }
      else .stop (.noStorage nf.toNat)
    else .ok () s

/-- `GROW()` (R89, D17). -/
def grow (s : State) : Flow Unit :=
  match s.nextFree with
  | none => .stop (.undefRead .nextFree)
  | some nf =>
    if growDue s.nBits s.maxBits nf then
      (realignSkip s.nBits.toNat { s with nBits := s.nBits + 1#5 }).andThen fun a s1 =>
        match a with
        | .err => .raised (raise .errSourceIo none none s1)
        | .ok | .eos => .ok () s1
    else .ok () s

/-- `TAIL(c, fb)` (R88): learn with the old `oldcode`, then replace it, then the growth check. -/
def tail (c : Code) (fb : Byte) (s : State) : Flow Unit :=
  match s.oldcode with
  | none => .stop (.undefRead .oldcode)
  | some p => (learn p fb s).andThen fun _ s1 => grow { s1 with oldcode := some c, finchar := some fb }

end Sys2Proof.Machine
end

