-- ==== Sys2Proof/Machine/Control.lean ====
section
/-! DEFINITION. The control family: CLR and END (42_decoder R81, R90). -/

namespace Sys2Proof.Machine

/-- What CLR writes before the realignment (R81). -/
def clearDecoder (s : State) : State :=
  { resetTable s with nBits := Config.initBits, oldcode := none, finchar := none, phase := .cleared }

/-- CLR (R81): the skip uses the width the code was read at. `Eos` during the skip has no further effect. -/
def execClr (s : State) : Host.Outcome State Fault Refusal :=
  ((realignSkip s.nBits.toNat (clearDecoder s)).andThen fun a s1 =>
    match a with
    | .err => .raised (raise .errSourceIo none none s1)
    | .ok | .eos => .ok () s1).toOutcome

/-- END (R90). -/
def execEndStream (s : State) : Host.Outcome State Fault Refusal :=
  let t := eosCheck s
  .next { s with warnTrunc := t, status := if t then .doneTruncated else .doneOk, phase := .done }

end Sys2Proof.Machine
end

