-- ==== Sys2Proof/Machine/Corrupt.lean ====
section
/-! DEFINITION. The corrupt-code family: BAD.FIRST, BAD.PCLR, BAD.RANGE (42_decoder R80, R83, R87). Each takes
CorruptStreamError with the code and the bit index of its first bit. -/

namespace Sys2Proof.Machine

/-- BAD.FIRST (R80). -/
def execBadFirst (c : Code) (s : State) : Host.Outcome State Fault Refusal := .next (raiseCorrupt .errCorruptFirst c s)

/-- BAD.PCLR (R83). -/
def execBadPclr (c : Code) (s : State) : Host.Outcome State Fault Refusal := .next (raiseCorrupt .errCorruptPclr c s)

/-- BAD.RANGE (R87). -/
def execBadRange (c : Code) (s : State) : Host.Outcome State Fault Refusal := .next (raiseCorrupt .errCorruptRange c s)

end Sys2Proof.Machine
end

