-- ==== Sys2Proof/Machine/Header.lean ====
section
/-! DEFINITION. The header family (42_decoder R75 to R77). The byte is the operand: taking it from the source, and what
`Eos` and `Err` raise, is the fetch (Machine/Fetch.lean). -/

namespace Sys2Proof.Machine

/-- HDR.M0 (R75): `h0 <- the byte`. It is judged by HDR.CTL (D6). -/
def execHdrM0 (magic0 : Byte) (s : State) : Host.Outcome State Fault Refusal := .next { s with h0 := some magic0 }

/-- HDR.M1 (R76): `h1 <- the byte`. -/
def execHdrM1 (magic1 : Byte) (s : State) : Host.Outcome State Fault Refusal := .next { s with h1 := some magic1 }

/-- What HDR.CTL writes once the header is accepted (R77): the source's stream start (R114 (b)). -/
def acceptHeader (s : State) : State :=
  { initTable s with
    nBits := Config.initBits
    oldcode := none
    finchar := none
    pos := 0
    buf := []
    bitOff := 0#3
    grpCnt := 0#3
    phase := .awaitFirst }

/-- HDR.CTL (R77): the magic, then `max_bits`, in this order (R101). `rsvd` is ignored (D5). -/
def execHdrCtl (block : Bool) (_rsvd : BitVec 2) (maxbits : BitVec 5) (s : State) : Host.Outcome State Fault Refusal :=
  match s.h0, s.h1 with
  | some h0, some h1 =>
    if h0 ≠ Config.magic0 ∨ h1 ≠ Config.magic1 then .next (raise .errFormatMagic none none s)
    else
      let s1 := { s with maxBits := maxbits, blockMode := block }
      if maxbits.toNat < Config.minBitsLimit ∨ Config.maxBitsLimit < maxbits.toNat then
        .next (raise .errFormatMaxbits none none s1)
      else .next (acceptHeader s1)
  | _, _ => .fault (.undefRead .headerByte)

end Sys2Proof.Machine
end

