-- ==== Sys2Proof/Machine/Literal.lean ====
section
/-! DEFINITION. The literal family: FIRST, PLIT, LIT (42_decoder R79, R82, R84). -/

namespace Sys2Proof.Machine

/-- The common effect of FIRST and PLIT (R79, R82): emit the byte; it becomes `oldcode` and `finchar`; nothing is learned. -/
def startLiteral (v : Byte) (s : State) : State :=
  { emit v s with oldcode := some v.toCode, finchar := some v, phase := .steady }

/-- FIRST (R79). -/
def execFirst (v : Byte) (s : State) : Host.Outcome State Fault Refusal := .next (startLiteral v s)

/-- PLIT (R82): the same effect as FIRST. -/
def execPlit (v : Byte) (s : State) : Host.Outcome State Fault Refusal := .next (startLiteral v s)

/-- LIT (R84): emit, then TAIL. -/
def execLit (v : Byte) (s : State) : Host.Outcome State Fault Refusal := (tail v.toCode v (emit v s)).toOutcome

end Sys2Proof.Machine
end

