-- ==== Sys2Proof/Machine/Reference.lean ====
section
/-! DEFINITION. The dictionary family: REF and KWK (42_decoder R85, R86). -/

namespace Sys2Proof.Machine

/-- REF (R85): expand the code, emit the expansion in order, then TAIL. -/
def execRef (c : Code) (s : State) : Host.Outcome State Fault Refusal :=
  ((lookupChain c s).andThen fun fb s1 => tail c fb (emitStack s1)).toOutcome

/-- KWK (R86): `finchar` goes out last, after the expansion of `oldcode`; TAIL learns the code itself. -/
def execKwk (c : Code) (s : State) : Host.Outcome State Fault Refusal :=
  match s.oldcode, s.finchar with
  | some oc, some fc =>
    ((push oc fc s).andThen fun _ s1 =>
      (lookupChain oc s1).andThen fun fb s2 => tail c fb (emitStack s2)).toOutcome
  | none, _ => .fault (.undefRead .oldcode)
  | some _, none => .fault (.undefRead .finchar)

end Sys2Proof.Machine
end

