-- ==== Sys2Proof/Machine/Dispatch.lean ====
section
/-! DEFINITION. The dispatch: one arm per row of spec/opcode_table.json, each a direct call of that row's meaning. -/

namespace Sys2Proof.Machine

def exec (i : Instr) (s : State) : Host.Outcome State Fault Refusal :=
  match i with
  | .hdrM0 magic0 => Sys2Proof.Machine.execHdrM0 magic0 s
  | .hdrM1 magic1 => Sys2Proof.Machine.execHdrM1 magic1 s
  | .hdrCtl block rsvd maxbits => Sys2Proof.Machine.execHdrCtl block rsvd maxbits s
  | .first v => Sys2Proof.Machine.execFirst v s
  | .badFirst c => Sys2Proof.Machine.execBadFirst c s
  | .clr => Sys2Proof.Machine.execClr s
  | .plit v => Sys2Proof.Machine.execPlit v s
  | .badPclr c => Sys2Proof.Machine.execBadPclr c s
  | .lit v => Sys2Proof.Machine.execLit v s
  | .ref c => Sys2Proof.Machine.execRef c s
  | .kwk c => Sys2Proof.Machine.execKwk c s
  | .badRange c => Sys2Proof.Machine.execBadRange c s
  | .endStream => Sys2Proof.Machine.execEndStream s

end Sys2Proof.Machine
end

