-- ==== Sys2Proof/Machine/Fetch.lean ====
section
/-! DEFINITION. Fetching the next item of the input and decoding it (42_decoder R75 to R78): the fetch part of the header
step's three parts, and of CODE_STEP. -/

namespace Sys2Proof.Machine

/-- Which header byte comes next, from the working values already held (R27). -/
def hdrPos (s : State) : HdrPos :=
  match s.h0, s.h1 with
  | none, _ => .m0
  | some _, none => .m1
  | some _, some _ => .ctl

/-- What the decoder reads of the state. -/
def decodeCtx (s : State) : DecodeCtx where
  phase := s.phase
  hdrPos := hdrPos s
  blockMode := s.blockMode
  nextFree := s.nextFree
  nBits := s.nBits
  bitOff := s.bitOff

/-- Take a header byte (R75, R76, R77): `Err` is tested before `Eos` (R101). -/
def fetchHeader (s : State) : Flow Instr :=
  match hdrFetch s with
  | (.err, s1) => .raised (raise .errSourceIo none none s1)
  | (.eos, s1) => .raised (raise .errFormatShort none none s1)
  | (.byte b, s1) => .ok (decodeHeader (hdrPos s1) b) s1

/-- The read of CODE_STEP (R78): `p0 <- pos`, read a code of width `n_bits`, classify it. `Eos` selects END. -/
def fetchCode (s : State) : Flow Instr :=
  if (decodeCtx s).widthOk then
    (readCode s.nBits.toNat { s with p0 := some s.pos }).andThen fun a s1 =>
      match a with
      | .err => .raised (raise .errSourceIo none none s1)
      | .eos => .ok .endStream s1
      | .code c =>
        match classify (decodeCtx s1) c with
        | .ok i => .ok i s1
        | .error e => .stop (.undecodable e)
  else .stop (.undecodable .badWidth)

/-- Fetch and decode the next item of the input. -/
def fetchItem (s : State) : Flow Instr :=
  match s.phase with
  | .header => fetchHeader s
  | .awaitFirst | .steady | .cleared => fetchCode s
  | .done | .fault => .stop (.undecodable .noCodeRead)

end Sys2Proof.Machine
end

