-- ==== Sys2Proof/Machine/Sequencer.lean ====
section
/-! DEFINITION. How one step runs (42_decoder R74, D23): the whole header in one step, or one whole code. -/

namespace Sys2Proof.Machine

/-- Fetch one item and run it; an exception taken by the fetch ends the step (R100). -/
def runItem (s : State) : Host.Outcome State Fault Refusal :=
  match fetchItem s with
  | .ok i s1 => exec i s1
  | .raised s1 => .next s1
  | .stop f => .fault f

/-- The working values do not survive the step (R27). -/
def dropWork (s : State) : State := { s with h0 := none, h1 := none, p0 := none }

/-- The end of a step. -/
def endStep (o : Host.Outcome State Fault Refusal) : Host.Outcome State Fault Refusal :=
  match o with
  | .next s => .next (dropWork s)
  | .fault f => .fault f
  | .refused r => .refused r

/-- `HDR()` (R74 to R77): HDR.M0, HDR.M1, HDR.CTL, at most `fuel` items, until the phase leaves `HEADER`. -/
def hdrItems (fuel : Nat) (s : State) : Host.Outcome State Fault Refusal :=
  match fuel with
  | 0 => .fault .loopBound
  | n + 1 =>
    match runItem s with
    | .next s1 => if s1.phase = .header then hdrItems n s1 else .next s1
    | .fault f => .fault f
    | .refused r => .refused r

/-- The header step (R74). -/
def hdrStep (s : State) : Host.Outcome State Fault Refusal := endStep (hdrItems Config.hdrLen s)

/-- `CODE_STEP()` (R78). -/
def codeStep (s : State) : Host.Outcome State Fault Refusal := endStep (runItem s)

/-- `STEP()` (R74). In `DONE` and `FAULT` there is no step: every register holds its value (R92, log entry 6). -/
def stepBody (s : State) : Host.Outcome State Fault Refusal :=
  match s.phase with
  | .header => hdrStep s
  | .awaitFirst | .steady | .cleared => codeStep s
  | .done | .fault => .next s

/-- The reset line comes first: while it is 1 the engine is in the reset state (R113). -/
def stepWithReset (s : State) : Host.Outcome State Fault Refusal :=
  if s.rst then .next (hwReset s) else stepBody s

/-- The registers a table word's context needs (`tableCtx`), and its bytes as the next bytes of the input in place of as
many that stand there (log entry 19). -/
def placeWord (s : State) (nbits w : Nat) : State :=
  let bytes := tableBytes nbits w
  let s1 := { s with
    rst := false, src := .opened, buf := [], bitOff := 0#3, input := bytes ++ s.input.drop bytes.length }
  match tableCtx nbits w with
  | none => s
  | some ctx =>
    if nbits = 8 then
      { s1 with
        phase := .header
        h0 := if ctx.hdrPos = .m0 then none else some Config.magic0
        h1 := if ctx.hdrPos = .ctl then some Config.magic1 else none }
    else
      { s1 with
        phase := .steady, nBits := ctx.nBits, maxBits := 16#5, blockMode := ctx.blockMode, nextFree := ctx.nextFree,
        oldcode := some 0#16, finchar := some 0#8, table := [(257, { pfx := 0#16, sfx := 0#8 })],
        input := if nbits = 0 then [] else s1.input, term := if nbits = 0 then .eos else s1.term }

end Sys2Proof.Machine
end

