-- ==== Sys2Proof/Machine/Step.lean ====
section
/-! DEFINITION. The step of the machine (42_decoder R74, 70_reset_and_hazards R113) and the host's placement of one
instruction in front of it. -/

namespace Sys2Proof.Machine

/-- One step of the engine. -/
def step (s : State) : Host.Outcome State Fault Refusal := stepWithReset s

/-- `s` with the instruction of a table word standing where `step` fetches its next item (log entry 19). -/
def State.withFetchWord (s : State) (nbits w : Nat) : State := placeWord s nbits w

end Sys2Proof.Machine
end

