-- ==== Sys2Proof/Safety.lean ====
section
/-! DEFINITION. What counts as a safe state of the engine, in the terms the statements use: the invariants that the spec
says hold between steps (R14 to R26, R33, R73), and the views of a state the statements compare. -/

namespace Sys2Proof.Machine

/-! ## Views -/

/-- The input bytes not consumed yet, the buffered ones first: what a clean end of stream leaves to be read (R62). After
`Eos` the source is not asked again (R36). -/
def pending (s : State) : List Byte := s.buf ++ (if s.src = .eos then [] else s.input)

/-- What the source answers once its bytes are taken (R36). -/
def ending (s : State) : Terminator := if s.src = .eos then .eos else s.term

/-- Bit `j` of a byte sequence (R9, R39): bit `j mod 8` of byte `j div 8`; 0 past the end. -/
def streamBit (bytes : List Byte) (j : Nat) : Bool := (bytes.getD (j / 8) 0#8).getLsbD (j % 8)

/-- `Σ_{i<w} Sbit(p + i) · 2^i` (R39, R49). -/
def bitsValue (bytes : List Byte) (p : Nat) : Nat → Nat
  | 0 => 0
  | w + 1 => bitsValue bytes p w + (streamBit bytes (p + w)).toNat * 2 ^ w

/-- `first(c)` (R66): the first byte of `expand(c)`. -/
def firstByte (m : Memory) (c : Code) : Option Byte := (expand m c).bind List.head?

/-- `t` differs from `s` at most in what the BitReader's operations write (R56 to R60): the buffer, the cursor,
`grp_cnt`, `src`, and the source's remaining bytes and request count. -/
def ReaderFrame (s t : State) : Prop :=
  t = { s with
    pos := t.pos, buf := t.buf, bitOff := t.bitOff, grpCnt := t.grpCnt, src := t.src, input := t.input,
    requests := t.requests }

/-- CorruptStreamError's status codes, 11 to 14 (R20, R97). -/
def Status.corrupt (st : Status) : Prop :=
  st = .errCorruptFirst ∨ st = .errCorruptRange ∨ st = .errCorruptPclr ∨ st = .errCorruptChain

/-! ## The end of a steady code (R88, R89) -/

/-- `next_free` after `LEARN` (R69): one more while below capacity. -/
def learnedNext (s : State) (nf : BitVec 17) : BitVec 17 :=
  if nf.toNat < 2 ^ s.maxBits.toNat then nf + 1#17 else nf

/-- The table after `LEARN(p, b)` (R69): the entry at `next_free` while below capacity. -/
def learnedTable (s : State) (nf : BitVec 17) (p : Code) (b : Byte) : Memory :=
  if nf.toNat < 2 ^ s.maxBits.toNat then s.table.write nf.toNat { pfx := p, sfx := b } else s.table

/-- The width check fires after this step's `LEARN` (R89). -/
def grows (s : State) (nf : BitVec 17) : Bool := growDue s.nBits s.maxBits (learnedNext s nf)

/-- The bits of the group of eight codes that are still to come, at the current width (R60). -/
def groupRest (s : State) : Nat := ((8 - s.grpCnt.toNat) % 8) * s.nBits.toNat

/-- The bits of the input from the cursor to the end (R22, R36). -/
def bitsLeft (s : State) : Nat := 8 * (pending s).length - s.bitOff.toNat

/-- The bytes that a skip of `n` bits takes from the source (R60): one whenever the buffer is empty. -/
def skipBytes (n : Nat) (s : State) : Nat := (n - avail s + 7) / 8

/-- Where the BitReader and the source stand in `t`, after a skip of `n` bits from `s` (R60). With as many bits left, the
next code is cut `n` bits further on, and only the bytes needed for that are taken. With fewer, the cursor stands at the
end of the input, and the source has answered its terminator. -/
structure Skipped (n : Nat) (s t : State) : Prop where
  enough : n ≤ bitsLeft s →
    t.pos = s.pos + n ∧ t.bitOff.toNat = (s.bitOff.toNat + n) % 8 ∧
    pending t = (pending s).drop ((s.bitOff.toNat + n) / 8) ∧ t.src = s.src ∧
    t.input = s.input.drop (skipBytes n s) ∧ t.requests = s.requests + skipBytes n s
  short : bitsLeft s < n →
    t.pos = s.pos + bitsLeft s ∧ t.buf = [] ∧ t.bitOff = 0#3 ∧
    t.src = (if ending s = .eos then .eos else .err) ∧
    t.input = (if s.src = .eos then s.input else []) ∧
    t.requests = s.requests + (if s.src = .eos then 0 else s.input.length + 1)

/-- `t` is what TAIL(c, fb) makes of `s` (R88, R89), where `p` is the old `oldcode` and `nf` the old `next_free`: the entry
learned, `oldcode` and `finchar` replaced, the width grown when due. Only a growth under `GROUP8` moves the cursor, by
the rest of the group at the old width and as far as the input goes (R60). Where the input ends in that skip, a clean end
has no further effect and the source's `Err` ends in FAULT, with every update kept (R102). -/
structure TailResult (s : State) (nf : BitVec 17) (p c : Code) (fb : Byte) (t : State) : Prop where
  table : t.table = learnedTable s nf p fb
  nextFree : t.nextFree = some (learnedNext s nf)
  oldcode : t.oldcode = some c
  finchar : t.finchar = some fb
  nBits : t.nBits = if grows s nf = true then s.nBits + 1#5 else s.nBits
  frame : t = { s with
    table := t.table, nextFree := t.nextFree, oldcode := t.oldcode, finchar := t.finchar, nBits := t.nBits,
    pos := t.pos, buf := t.buf, bitOff := t.bitOff, grpCnt := t.grpCnt, src := t.src, input := t.input,
    requests := t.requests, status := t.status, phase := t.phase, stack := t.stack }
  still : s.realign = .none ∨ grows s nf = false →
    t.pos = s.pos ∧ t.buf = s.buf ∧ t.bitOff = s.bitOff ∧ t.grpCnt = s.grpCnt ∧ t.src = s.src ∧ t.input = s.input ∧
    t.requests = s.requests
  skipped : s.realign = .group8 → grows s nf = true → (s.buf = [] → s.bitOff = 0#3) →
    t.grpCnt = 0#3 ∧ Skipped (groupRest s) s t ∧
    (groupRest s ≤ bitsLeft s ∨ ending s = .eos → t.status = s.status ∧ t.phase = s.phase ∧ t.stack = s.stack) ∧
    (bitsLeft s < groupRest s → ending s = .err → t.status = .errSourceIo ∧ t.phase = .fault ∧ t.stack = [])
  forward : s.pos ≤ t.pos
  outcome : (t.status = s.status ∧ t.phase = s.phase ∧ t.stack = s.stack ∧ (t.src = s.src ∨ t.src = .eos)) ∨
    (s.realign = .group8 ∧ grows s nf = true ∧ t.src = .err ∧ t.status = .errSourceIo ∧ t.phase = .fault ∧ t.stack = [])

/-! ## The invariant -/

/-- No working value survives a step, and the stack is empty between steps (R26, R27). -/
def WorkIdle (s : State) : Prop := s.stack = [] ∧ s.h0 = none ∧ s.h1 = none ∧ s.p0 = none

/-- The BitReader between steps (R22, R23): at most `BUF_BYTES` bytes, each with an unconsumed bit, and
`pos mod 8 = bit_off`. -/
def BufferOk (s : State) : Prop :=
  s.buf.length ≤ Config.bufBytes ∧ (s.buf = [] → s.bitOff = 0#3) ∧ s.pos % 8 = s.bitOff.toNat

/-- `grp_cnt` is absent under `REALIGN = NONE` (R24): it stays 0. -/
def GroupOk (s : State) : Prop := s.realign = .none → s.grpCnt = 0#3

/-- The source is not asked again after `Eos`, and `Err` stops the engine (R21, R36). -/
def SourceOk (s : State) : Prop := s.src = .err → s.phase = .fault

/-- `phase`, `status` and `warn_trunc` agree (R20, R21), and the fault latches hold a value exactly for
CorruptStreamError (R25). -/
def StatusOk (s : State) : Prop :=
  (s.phase = .done ↔ s.status.finished = true) ∧ (s.phase = .fault ↔ s.status.fatal = true) ∧
  (s.warnTrunc = true ↔ s.status = .doneTruncated) ∧
  (s.faultCode.isSome = true ↔ s.status.corrupt) ∧ (s.faultPos.isSome = true ↔ s.status.corrupt)

/-- Phase `HEADER` (R73): nothing read yet. -/
def HeaderOk (s : State) : Prop :=
  s.nBits = Config.initBits ∧ s.nextFree = none ∧ s.oldcode = none ∧ s.finchar = none ∧ s.pos = 0 ∧ s.buf = []

/-- The widths and `next_free` (R14, R15, R73), and what R50 says of the width: it is the least one, 9 at least, that
`next_free − 1` fits. -/
def WidthOk (s : State) (nf : BitVec 17) : Prop :=
  Config.minBitsLimit ≤ s.nBits.toNat ∧ s.nBits.toNat ≤ s.maxBits.toNat ∧ s.maxBits.toNat ≤ Config.maxBitsLimit ∧
  (Config.firstFree s.blockMode).toNat ≤ nf.toNat ∧ nf.toNat ≤ 2 ^ s.maxBits.toNat ∧
  (s.nBits.toNat < s.maxBits.toNat → nf.toNat ≤ 2 ^ s.nBits.toNat - 1) ∧
  (Config.minBitsLimit < s.nBits.toNat → 2 ^ (s.nBits.toNat - 1) ≤ nf.toNat)

/-- Every valid learned code has an entry whose prefix is a smaller valid code (R33 (c)). -/
def TableOk (blockMode : Bool) (nf : BitVec 17) (m : Memory) : Prop :=
  ∀ c : Code, isLiteral c = false → valid blockMode nf c = true →
    ∃ e, m.read c.toNat = some e ∧ e.pfx.toNat < c.toNat ∧ valid blockMode nf e.pfx = true

/-- What holds in each phase in which a code is read (R73), `oldcode` and `finchar` as R18 says. -/
def PhaseOk (s : State) (nf : BitVec 17) : Prop :=
  match s.phase with
  | .awaitFirst =>
    s.oldcode = none ∧ s.finchar = none ∧ s.nBits = Config.initBits ∧ nf = Config.firstFree s.blockMode
  | .steady =>
    ∃ oc fc, s.oldcode = some oc ∧ s.finchar = some fc ∧ valid s.blockMode nf oc = true ∧
      firstByte s.table oc = some fc
  | .cleared =>
    s.blockMode = true ∧ s.oldcode = none ∧ s.finchar = none ∧ s.nBits = Config.initBits ∧ nf = 257#17
  | .header | .done | .fault => True

/-- What holds while codes are read (R33, R73). -/
def CodeOk (s : State) : Prop :=
  ∃ nf, s.nextFree = some nf ∧ WidthOk s nf ∧ TableOk s.blockMode nf s.table ∧ PhaseOk s nf

/-- The invariant between steps. -/
def Inv (s : State) : Prop :=
  s.table.wf = true ∧ WorkIdle s ∧ BufferOk s ∧ GroupOk s ∧ SourceOk s ∧ StatusOk s ∧
  (s.phase = .header → HeaderOk s) ∧ (s.phase.readsCode = true → CodeOk s)

end Sys2Proof.Machine
end

