-- ==== Sys2Proof/Certificates/Slice0/Obligations.lean ====
section
/-! DEFINITION. The statements for the provers. Each docstring names the rule of spec/ it comes from; a clause that rests
on a choice of the model names its log entry. -/

open Sys2Proof Sys2Proof.Machine

/-! ## Reset, the terminal phases, the header -/

/-- R29, first column; R113: the values hardware reset leaves. -/
def Obligations.ResetRegisterValues : Prop :=
  State.reset.phase = .header ∧ State.reset.status = .running ∧ State.reset.warnTrunc = false ∧
  State.reset.src = .opened ∧ State.reset.maxBits = 0#5 ∧ State.reset.blockMode = false ∧
  State.reset.nBits = 9#5 ∧ State.reset.nextFree = none ∧ State.reset.oldcode = none ∧
  State.reset.finchar = none ∧ State.reset.pos = 0 ∧ State.reset.buf.length = 0 ∧ State.reset.bitOff = 0#3 ∧
  State.reset.grpCnt = 0#3 ∧ State.reset.faultCode = none ∧ State.reset.faultPos = none ∧
  State.reset.stack.length = 0

/-- R113: while the reset line is 1, from any state, a step leaves the engine in the reset state; bytes emitted stay
emitted and the engine expects a header. That the line is read once a step, and that the table then lists nothing, is
the model's (log entries 5 and 9). -/
def Obligations.ResetLineReturnsToReset : Prop :=
  ∀ s : State, s.rst = true →
    ∃ t, step s = .next t ∧
      t.phase = .header ∧ t.status = .running ∧ t.warnTrunc = false ∧ t.src = .opened ∧ t.maxBits = 0#5 ∧
      t.blockMode = false ∧ t.nBits = 9#5 ∧ t.nextFree = none ∧ t.oldcode = none ∧ t.finchar = none ∧ t.pos = 0 ∧
      t.buf = [] ∧ t.bitOff = 0#3 ∧ t.grpCnt = 0#3 ∧ t.faultCode = none ∧ t.faultPos = none ∧ t.stack = [] ∧
      t.out = s.out ∧ t.input = s.input ∧ t.term = s.term ∧ t.requests = s.requests ∧ t.realign = s.realign ∧
      t.rst = true

/-- R92, R103: in DONE and FAULT every register holds its value, nothing is asked of the source and nothing is emitted,
as long as the reset line is 0. That such a step is a next state equal to the old one is log entry 6. -/
def Obligations.TerminalPhasesHoldEverything : Prop :=
  ∀ s : State, s.rst = false → (s.phase = .done ∨ s.phase = .fault) → step s = .next s

/-- R77, R114 (b): a header with the magic bytes and `max_bits` in 9..16 starts the stream, in one step. -/
def Obligations.HeaderAccepted : Prop :=
  ∀ (s : State) (h2 : Byte) (rest : List Byte), s.rst = false → s.phase = .header → s.src ≠ .eos →
    s.h0 = none → s.h1 = none → s.input = 0x1F#8 :: 0x9D#8 :: h2 :: rest →
    9 ≤ (h2.extractLsb' 0 5).toNat → (h2.extractLsb' 0 5).toNat ≤ 16 →
    step s = .next { s with
      input := rest, requests := s.requests + 3,
      maxBits := h2.extractLsb' 0 5, blockMode := h2.getLsbD 7,
      nextFree := some (if h2.getLsbD 7 then 257#17 else 256#17), nBits := 9#5, oldcode := none, finchar := none,
      pos := 0, buf := [], bitOff := 0#3, grpCnt := 0#3, phase := .awaitFirst, p0 := none }

/-- R77, R101: three bytes with a wrong magic, then `max_bits` outside 9..16: FormatError, with nothing emitted. On a bad
magic `max_bits` and `block_mode` keep their values; an unsupported `max_bits` is left readable. -/
def Obligations.HeaderRejected : Prop :=
  ∀ (s : State) (b0 b1 b2 : Byte) (rest : List Byte), s.rst = false → s.phase = .header → s.src ≠ .eos →
    s.h0 = none → s.h1 = none → s.input = b0 :: b1 :: b2 :: rest →
    ((b0 ≠ 0x1F#8 ∨ b1 ≠ 0x9D#8) →
      step s = .next { s with
        input := rest, requests := s.requests + 3, status := .errFormatMagic, stack := [], phase := .fault,
        p0 := none }) ∧
    (b0 = 0x1F#8 → b1 = 0x9D#8 → ((b2.extractLsb' 0 5).toNat < 9 ∨ 16 < (b2.extractLsb' 0 5).toNat) →
      step s = .next { s with
        input := rest, requests := s.requests + 3, maxBits := b2.extractLsb' 0 5, blockMode := b2.getLsbD 7,
        status := .errFormatMaxbits, stack := [], phase := .fault, p0 := none })

/-- R75, R76, R77, R101: fewer than three header bytes. The terminator's class decides, not the bytes seen. -/
def Obligations.HeaderCutShort : Prop :=
  ∀ s : State, s.rst = false → s.phase = .header → s.src ≠ .eos → s.h0 = none → s.h1 = none → s.input.length < 3 →
    (s.term = .eos → step s = .next { s with
      input := [], requests := s.requests + s.input.length + 1, src := .eos, status := .errFormatShort, stack := [],
      phase := .fault, p0 := none }) ∧
    (s.term = .err → step s = .next { s with
      input := [], requests := s.requests + s.input.length + 1, src := .err, status := .errSourceIo, stack := [],
      phase := .fault, p0 := none })

/-- R75, R76, R77: the three header items one by one. HDR.M0 and HDR.M1 hold their byte and judge nothing; HDR.CTL judges
the magic first, then `max_bits` (R101), and ignores bits 6..5 (R48, D5): the result does not mention `rsvd`. That the
held bytes are fields of the state is log entry 2. -/
def Obligations.HeaderItemsEffect : Prop :=
  (∀ (b : Byte) (s : State), exec (.hdrM0 b) s = .next { s with h0 := some b }) ∧
  (∀ (b : Byte) (s : State), exec (.hdrM1 b) s = .next { s with h1 := some b }) ∧
  (∀ (s : State) (a b : Byte) (block : Bool) (rsvd : BitVec 2) (maxbits : BitVec 5), s.h0 = some a → s.h1 = some b →
    exec (.hdrCtl block rsvd maxbits) s = .next (
      if a ≠ 0x1F#8 ∨ b ≠ 0x9D#8 then { s with status := .errFormatMagic, stack := [], phase := .fault }
      else if maxbits.toNat < 9 ∨ 16 < maxbits.toNat then
        { s with
          maxBits := maxbits, blockMode := block, status := .errFormatMaxbits, stack := [], phase := .fault }
      else
        { s with
          maxBits := maxbits, blockMode := block, nextFree := some (if block then 257#17 else 256#17), nBits := 9#5,
          oldcode := none, finchar := none, pos := 0, buf := [], bitOff := 0#3, grpCnt := 0#3,
          phase := .awaitFirst }))

/-! ## Decoding -/

/-- R51: the classification of a code that fits the width gives exactly the row whose condition holds. -/
def Obligations.ClassificationIsExact : Prop :=
  ∀ (ctx : DecodeCtx) (c : Code) (i : Instr), ctx.fits c = true →
    (classify ctx c = .ok i ↔ ctx.admits i = true ∧ i.value = some c)

/-- R51: the classification is total: in every phase in which a code is read, every 16-bit code has a row, given what
R73 says of the phase. -/
def Obligations.ClassificationIsTotal : Prop :=
  ∀ (ctx : DecodeCtx) (c : Code), ctx.phase.readsCode = true →
    (ctx.phase = .steady → ctx.nextFree.isSome = true) → (ctx.phase = .cleared → ctx.blockMode = true) →
    ∃ i, classify ctx c = .ok i

/-- R46 to R51: decoding the bytes of an instruction that the state admits gives it back, for every row, every operand,
every width 9..16 and every bit offset. -/
def Obligations.DecodeEncodeRoundTrip : Prop :=
  ∀ (ctx : DecodeCtx) (i : Instr), ctx.widthOk = true → ctx.admits i = true →
    decode ctx (encode ctx i) = .ok i

/-- Words of the opcode table, written out from R47, R48 and the table's rows (the context is log entry 19). -/
def Obligations.TableWordsDecode : Prop :=
  decodeTableWord 8 0b00011111 = some (.hdrM0 0x1F#8) ∧
  decodeTableWord 8 0b10011101 = some (.hdrM1 0x9D#8) ∧
  decodeTableWord 8 0b10010000 = some (.hdrCtl true 0#2 16#5) ∧
  decodeTableWord 8 0b01101001 = some (.hdrCtl false 3#2 9#5) ∧
  decodeTableWord 16 0b0000000001000001 = some (.lit 65#8) ∧
  decodeTableWord 16 0b0000000100000000 = some .clr ∧
  decodeTableWord 16 0b0000000100000001 = some (.ref 257#16) ∧
  decodeTableWord 16 0b0000000100000010 = some (.kwk 258#16) ∧
  decodeTableWord 16 0b0000000100000011 = some (.badRange 259#16) ∧
  decodeTableWord 0 0 = some .endStream

/-- R74, R78: a step runs the decoded instruction. In a code phase: the item that `decode` reads from the unconsumed
bytes is the one fetched, `exec` runs on the state whose cursor stands after it (END consumes nothing), and the step ends
by dropping the working values (log entry 2). In HEADER: the three items in one step. -/
def Obligations.StepRunsDecodedInstruction : Prop :=
  (∀ (s : State) (i : Instr), s.rst = false → s.phase.readsCode = true → (decodeCtx s).widthOk = true →
    decode (decodeCtx s) (pending s) = .ok i → (i = .endStream → ending s = .eos) →
    ∃ s1, fetchItem s = .ok i s1 ∧ step s = endStep (exec i s1) ∧ s1.p0 = some s.pos ∧
      ReaderFrame { s with p0 := some s.pos } s1 ∧
      (i ≠ .endStream → s1.pos = s.pos + s.nBits.toNat) ∧
      (i = .endStream → s1.pos = s.pos ∧ s1.bitOff = s.bitOff ∧ s1.buf = pending s)) ∧
  (∀ (s : State) (b0 b1 b2 : Byte) (rest : List Byte), s.rst = false → s.phase = .header → s.src ≠ .eos →
    s.h0 = none → s.h1 = none → s.input = b0 :: b1 :: b2 :: rest →
    decode (decodeCtx s) s.input = .ok (.hdrM0 b0) ∧
    decode { decodeCtx s with hdrPos := .m1 } (b1 :: b2 :: rest) = .ok (.hdrM1 b1) ∧
    ∃ i, decode { decodeCtx s with hdrPos := .ctl } (b2 :: rest) = .ok i ∧
      step s = endStep (exec i { s with
        h0 := some b0, h1 := some b1, input := rest, requests := s.requests + 3 }))

/-! ## The codes -/

/-- R79, R82: FIRST and PLIT emit the literal and make it `oldcode` and `finchar`; nothing else changes. -/
def Obligations.StartLiteralEffect : Prop :=
  ∀ (v : Byte) (s : State),
    exec (.first v) s = .next { s with
      out := s.out ++ [v], oldcode := some (v.setWidth 16), finchar := some v, phase := .steady } ∧
    exec (.plit v) s = .next { s with
      out := s.out ++ [v], oldcode := some (v.setWidth 16), finchar := some v, phase := .steady }

/-- R80, R83, R87, R100: the corrupt kinds take CorruptStreamError with their own status, the code and its first bit;
nothing is emitted and every other register and the table keep their values. That `p0` is a field of the state is log
entry 2. -/
def Obligations.CorruptCodesRaise : Prop :=
  ∀ (c : Code) (p : Nat) (s : State), s.p0 = some p →
    exec (.badFirst c) s = .next { s with
      status := .errCorruptFirst, faultCode := some c, faultPos := some p, stack := [], phase := .fault } ∧
    exec (.badPclr c) s = .next { s with
      status := .errCorruptPclr, faultCode := some c, faultPos := some p, stack := [], phase := .fault } ∧
    exec (.badRange c) s = .next { s with
      status := .errCorruptRange, faultCode := some c, faultPos := some p, stack := [], phase := .fault }

/-- R80, R83, R87, with R51 and R101: which codes are the corrupt kinds, CLEAR as the very first code among them. -/
def Obligations.CorruptCodesClassified : Prop :=
  ∀ (ctx : DecodeCtx) (c : Code) (nf : BitVec 17),
    (ctx.phase = .awaitFirst → 256 ≤ c.toNat → classify ctx c = .ok (.badFirst c)) ∧
    (ctx.phase = .cleared → 257 ≤ c.toNat → classify ctx c = .ok (.badPclr c)) ∧
    (ctx.phase = .steady → ctx.nextFree = some nf → 256 ≤ c.toNat → nf.toNat < c.toNat →
      ¬ (ctx.blockMode = true ∧ c = 256#16) → classify ctx c = .ok (.badRange c))

/-- R81 under `REALIGN = NONE`: CLEAR resets `next_free` and the width, makes `oldcode` and `finchar` UNDEF, and changes
nothing else: the table is not erased, nothing is emitted, the cursor stays. -/
def Obligations.ClearWithoutRealign : Prop :=
  ∀ s : State, s.realign = .none →
    exec .clr s = .next { s with
      nextFree := some 257#17, nBits := 9#5, oldcode := none, finchar := none, phase := .cleared }

/-- R81 under `REALIGN = GROUP8`, R60: the same, and the cursor skips `((8 − grp_cnt) mod 8) · n_bits` bits, at the width
the CLEAR was read with, as far as the input goes, taking only the bytes it needs; the source's `Err` in the skip is SourceIOError with the CLEAR kept
(R102). -/
def Obligations.ClearUnderGroup8 : Prop :=
  ∀ s : State, s.realign = .group8 → (s.buf = [] → s.bitOff = 0#3) →
    let n := ((8 - s.grpCnt.toNat) % 8) * s.nBits.toNat
    let left := 8 * (pending s).length - s.bitOff.toNat
    ∃ t, exec .clr s = .next t ∧
      t.nextFree = some 257#17 ∧ t.nBits = 9#5 ∧ t.oldcode = none ∧ t.finchar = none ∧ t.grpCnt = 0#3 ∧
      t = { s with
        nextFree := t.nextFree, nBits := t.nBits, oldcode := t.oldcode, finchar := t.finchar, grpCnt := t.grpCnt,
        pos := t.pos, buf := t.buf, bitOff := t.bitOff, src := t.src, input := t.input, requests := t.requests,
        phase := t.phase, status := t.status, stack := t.stack } ∧
      Skipped n s t ∧
      (n ≤ left → t.pos = s.pos + n ∧ t.phase = .cleared ∧ t.status = s.status ∧ t.stack = s.stack ∧
        pending t = (pending s).drop ((s.bitOff.toNat + n) / 8)) ∧
      (left < n → t.pos = s.pos + left ∧ t.buf = [] ∧
        (ending s = .eos → t.phase = .cleared ∧ t.status = s.status ∧ t.stack = s.stack) ∧
        (ending s = .err → t.phase = .fault ∧ t.status = .errSourceIo ∧ t.stack = []))

/-- R90, R61: END sets the warning and the outcome by the truncated-tail test, and changes nothing else. -/
def Obligations.EndEffect : Prop :=
  ∀ s : State,
    let stray := 1 < s.buf.length ∨ ∃ b, s.buf = [b] ∧ b >>> s.bitOff.toNat ≠ 0#8
    (stray → exec .endStream s = .next { s with warnTrunc := true, status := .doneTruncated, phase := .done }) ∧
    (¬ stray → exec .endStream s = .next { s with warnTrunc := false, status := .doneOk, phase := .done })

/-- R84, R88, R89 under `REALIGN = NONE`: a literal in steady state is emitted; the entry `(oldcode, byte)` is learned at
`next_free` while below capacity; the width grows when the new `next_free` passes the ceiling. -/
def Obligations.LiteralWithoutRealign : Prop :=
  ∀ (v : Byte) (s : State) (oc : Code) (nf : BitVec 17), s.realign = .none → s.oldcode = some oc →
    s.nextFree = some nf → 256 ≤ nf.toNat → s.maxBits.toNat ≤ 16 →
    exec (.lit v) s = .next { s with
      out := s.out ++ [v],
      table := if nf.toNat < 2 ^ s.maxBits.toNat then s.table.write nf.toNat { pfx := oc, sfx := v } else s.table,
      nextFree := some (if nf.toNat < 2 ^ s.maxBits.toNat then nf + 1#17 else nf),
      oldcode := some (v.setWidth 16), finchar := some v,
      nBits :=
        if 2 ^ s.nBits.toNat - 1 < (if nf.toNat < 2 ^ s.maxBits.toNat then nf + 1#17 else nf).toNat ∧
            s.nBits.toNat < s.maxBits.toNat then s.nBits + 1#5 else s.nBits }

/-- R84, R88, R89, R60, R102 under either `REALIGN`: a literal in steady state always completes, with what TAIL writes.
Where the width grows under `GROUP8`, `TailResult` also says where the next code is cut and how a skip that meets the end
of the input leaves the engine. -/
def Obligations.LiteralCompletes : Prop :=
  ∀ (v : Byte) (s : State) (oc : Code) (nf : BitVec 17), s.oldcode = some oc → s.nextFree = some nf →
    256 ≤ nf.toNat → s.maxBits.toNat ≤ 16 →
    ∃ t, exec (.lit v) s = .next t ∧ TailResult { s with out := s.out ++ [v] } nf oc (v.setWidth 16) v t

/-- R85, R67, R91, R88: a valid code's expansion is emitted, in order, and the entry `(oldcode, first byte)` is learned;
the stack is empty again. -/
def Obligations.ReferenceEmitsExpansion : Prop :=
  ∀ (c : Code) (s : State) (oc : Code) (nf : BitVec 17), s.oldcode = some oc → s.nextFree = some nf →
    WidthOk s nf → TableOk s.blockMode nf s.table → valid s.blockMode nf c = true → s.stack = [] →
    ∃ x xs t, expand s.table c = some (x :: xs) ∧ exec (.ref c) s = .next t ∧
      TailResult { s with out := s.out ++ (x :: xs) } nf oc c x t ∧ t.stack = []

/-- R86: KWK emits the expansion of `oldcode` and then `finchar`; the entry it learns is the code itself, so that the
code expands afterwards to what was just emitted. -/
def Obligations.KwkEmitsAndLearnsItself : Prop :=
  ∀ (c : Code) (s : State) (oc : Code) (fc : Byte) (nf : BitVec 17), s.oldcode = some oc → s.finchar = some fc →
    s.nextFree = some nf → WidthOk s nf → TableOk s.blockMode nf s.table → valid s.blockMode nf oc = true →
    firstByte s.table oc = some fc → s.stack = [] → c.toNat = nf.toNat → c.toNat < 2 ^ s.nBits.toNat →
    ∃ bs t, expand s.table oc = some bs ∧ exec (.kwk c) s = .next t ∧
      TailResult { s with out := s.out ++ bs ++ [fc] } nf oc c fc t ∧ t.stack = [] ∧
      expand t.table c = some (bs ++ [fc])

/-- R68, R100: a walk that stands at an invalid code, or whose prefix is not smaller than the code, takes
ERR_CORRUPT_CHAIN with nothing emitted. No run from reset reaches it (R72). The latched code is log entry 12, and that `p0` is a field of the state is log entry 2. -/
def Obligations.ChainGuardRaises : Prop :=
  ∀ (c : Code) (s : State) (nf : BitVec 17) (p : Nat), s.nextFree = some nf → 256 ≤ c.toNat → s.p0 = some p →
    (valid s.blockMode nf c = false ∨
      ∃ e, valid s.blockMode nf c = true ∧ s.table.read c.toNat = some e ∧ c.toNat ≤ e.pfx.toNat) →
    exec (.ref c) s = .next { s with
      status := .errCorruptChain, faultCode := some c, faultPos := some p, stack := [], phase := .fault }

/-! ## The streams, the stack and the BitReader -/

/-- R36: the source's answers in order, then the terminator; `Eos` is sticky. -/
def Obligations.SourceAnswersInOrder : Prop :=
  ∀ s : State,
    (s.src = .eos → srcNext s = (.eos, s)) ∧
    (∀ b rest, s.src ≠ .eos → s.input = b :: rest →
      srcNext s = (.byte b, { s with input := rest, requests := s.requests + 1 })) ∧
    (s.src ≠ .eos → s.input = [] → s.term = .eos →
      srcNext s = (.eos, { s with src := .eos, requests := s.requests + 1 })) ∧
    (s.src ≠ .eos → s.input = [] → s.term = .err →
      srcNext s = (.err, { s with src := .err, requests := s.requests + 1 }))

/-- R35, D10: of simultaneous answers `in_err` wins over `in_eos` over `in_valid`. -/
def Obligations.SourcePinPriority : Prop :=
  ∀ (e v : Bool) (d : Byte),
    SrcAnswer.ofPins true e v d = some .err ∧ SrcAnswer.ofPins false true v d = some .eos ∧
    SrcAnswer.ofPins false false true d = some (.byte d) ∧ SrcAnswer.ofPins false false false d = none

/-- R34: `Pop` answers the byte last pushed and restores the stack; `Push` on a full stack is ERR_CORRUPT_CHAIN (the code
it latches is log entry 13). -/
def Obligations.StackIsLastInFirstOut : Prop :=
  ∀ (cur : Code) (b : Byte) (s : State),
    (s.stack.length < 65281 → ∃ t, push cur b s = .ok () t ∧ t.stack.length = s.stack.length + 1 ∧
      pop t = some (b, s)) ∧
    (65281 ≤ s.stack.length → push cur b s = .raised (raise .errCorruptChain (some cur) s.p0 s))

/-- R91: EMIT_STACK sends the whole stack to the sink, top first, and leaves it empty. -/
def Obligations.EmitStackSendsTopFirst : Prop :=
  ∀ s : State, emitStack s = { s with out := s.out ++ s.stack, stack := [] }

/-- R55: `AVAIL`, its range with at most three bytes buffered, and that it is 0 exactly when the buffer is empty. -/
def Obligations.AvailCountsBits : Prop :=
  ∀ s : State, avail s = 8 * s.buf.length - s.bitOff.toNat ∧ (s.buf.length ≤ 3 → avail s ≤ 24) ∧
    (avail s = 0 ↔ s.buf.length = 0)

/-- R59: `ADVANCE(n)` within the buffer drops the consumed bytes, moves the cursor by `n` and leaves the buffer as R23
says; `AVAIL` falls by `n`. -/
def Obligations.AdvanceMovesCursor : Prop :=
  ∀ (n : Nat) (s : State), n ≤ avail s →
    advance n s = { s with
      buf := s.buf.drop ((s.bitOff.toNat + n) / 8), bitOff := BitVec.ofNat 3 ((s.bitOff.toNat + n) % 8),
      pos := s.pos + n } ∧
    avail (advance n s) = avail s - n ∧ (BufferOk s → BufferOk (advance n s))

/-- R62, R39, R49, R58: `READ_CODE(w)` answers the `w` bits at the cursor, least significant first, and moves the cursor
by `w`; where fewer are left it answers the terminator and consumes nothing, with all that is left in the buffer. -/
def Obligations.ReadCodeMeetsBitStream : Prop :=
  ∀ (w : Nat) (s : State), 9 ≤ w → w ≤ 16 →
    (s.bitOff.toNat + w ≤ 8 * (pending s).length →
      ∃ v t, readCode w s = .ok (.code v) t ∧ v.toNat = bitsValue (pending s) s.bitOff.toNat w ∧
        t.pos = s.pos + w ∧ pending t = (pending s).drop ((s.bitOff.toNat + w) / 8) ∧
        t.bitOff.toNat = (s.bitOff.toNat + w) % 8 ∧ ReaderFrame s t ∧
        t.grpCnt = (if s.realign = .group8 then s.grpCnt + 1#3 else s.grpCnt)) ∧
    (8 * (pending s).length < s.bitOff.toNat + w →
      ∃ t, readCode w s = .ok (if ending s = .eos then .eos else .err) t ∧ t.pos = s.pos ∧ t.bitOff = s.bitOff ∧
        t.buf = pending s ∧ t.grpCnt = s.grpCnt ∧ ReaderFrame s t)

/-- R37, R58 (c), R123: a code read takes a byte only while fewer than `w` bits are buffered, so never one it does not
need, and it makes at most three requests. -/
def Obligations.ReadCodeFetchesOnDemand : Prop :=
  ∀ (w : Nat) (s t : State) (a : ReadAns), 9 ≤ w → w ≤ 16 → (s.buf = [] → s.bitOff = 0#3) →
    readCode w s = .ok a t →
    ∃ taken, s.input = taken ++ t.input ∧
      (taken = [] ∨ 8 * s.buf.length - s.bitOff.toNat + 8 * (taken.length - 1) < w) ∧
      t.requests = s.requests + taken.length + (if a = .eos ∧ s.src ≠ .eos ∨ a = .err then 1 else 0) ∧
      t.requests ≤ s.requests + 3

/-- R60: under `NONE` REALIGN_SKIP does nothing; under `GROUP8` it skips the rest of the group of eight codes, whatever
the skipped bits are, up to the end of the input, and clears `grp_cnt`. -/
def Obligations.RealignSkipMovesToGroupEnd : Prop :=
  ∀ (w : Nat) (s : State), (s.buf = [] → s.bitOff = 0#3) →
    let n := ((8 - s.grpCnt.toNat) % 8) * w
    let left := 8 * (pending s).length - s.bitOff.toNat
    (s.realign = .none → realignSkip w s = .ok .ok s) ∧
    (s.realign = .group8 → n ≤ left →
      ∃ t, realignSkip w s = .ok .ok t ∧ Skipped n s t ∧ t.pos = s.pos + n ∧ t.bitOff.toNat = (s.bitOff.toNat + n) % 8 ∧
        pending t = (pending s).drop ((s.bitOff.toNat + n) / 8) ∧ t.grpCnt = 0#3 ∧ ReaderFrame s t) ∧
    (s.realign = .group8 → left < n →
      ∃ t, realignSkip w s = .ok (if ending s = .eos then .eos else .err) t ∧ Skipped n s t ∧
        t.pos = s.pos + left ∧ t.buf = [] ∧
        t.input = (if s.src = .eos then s.input else []) ∧ t.grpCnt = 0#3 ∧ ReaderFrame s t)

/-! ## The CodeTable -/

/-- R65: which codes are valid. -/
def Obligations.ValidCodes : Prop :=
  ∀ (b : Bool) (nf : BitVec 17) (c : Code),
    valid b nf c = true ↔ c.toNat < 256 ∨ ((if b then 257 else 256) ≤ c.toNat ∧ c.toNat < nf.toNat)

/-- R64, R70: INIT and RESET write `next_free` and nothing else; after either no learned code is valid. -/
def Obligations.InitAndResetTable : Prop :=
  ∀ s : State,
    initTable s = { s with nextFree := some (if s.blockMode then 257#17 else 256#17) } ∧
    resetTable s = { s with nextFree := some 257#17 } ∧
    (∀ c : Code, 256 ≤ c.toNat → valid s.blockMode (if s.blockMode then 257#17 else 256#17) c = false)

/-- R69: LEARN writes the entry at `next_free` and raises it by one, never past 65536; at capacity it is a no-op. -/
def Obligations.LearnAppendsEntry : Prop :=
  ∀ (p : Code) (b : Byte) (s : State) (nf : BitVec 17), s.nextFree = some nf → 256 ≤ nf.toNat →
    s.maxBits.toNat ≤ 16 →
    (nf.toNat < 2 ^ s.maxBits.toNat →
      (∃ t, learn p b s = .ok () t ∧ t.nextFree = some (nf + 1#17) ∧ (nf + 1#17).toNat = nf.toNat + 1 ∧
        t.table.read nf.toNat = some { pfx := p, sfx := b } ∧
        (∀ d, d ≠ nf.toNat → t.table.read d = s.table.read d) ∧
        t = { s with table := t.table, nextFree := t.nextFree })) ∧
    (2 ^ s.maxBits.toNat ≤ nf.toNat → learn p b s = .ok () s)

/-- R67: with room on the stack, LOOKUP_CHAIN leaves the expansion of a valid code on it, first byte uppermost, answers
that byte, and changes nothing else. -/
def Obligations.LookupChainPushesExpansion : Prop :=
  ∀ (c : Code) (s : State) (nf : BitVec 17), s.nextFree = some nf → TableOk s.blockMode nf s.table →
    valid s.blockMode nf c = true →
    ∃ x xs, expand s.table c = some (x :: xs) ∧
      (s.stack.length + (x :: xs).length ≤ 65281 →
        lookupChain c s = .ok x { s with stack := (x :: xs) ++ s.stack })

/-- R71: the expansion of a learned code `c` has at least two and at most `c − FIRST_FREE + 2` bytes. -/
def Obligations.ExpansionIsBounded : Prop :=
  ∀ (b : Bool) (nf : BitVec 17) (m : Memory) (c : Code), TableOk b nf m → 256 ≤ c.toNat → valid b nf c = true →
    ∃ bs, expand m c = some bs ∧ 2 ≤ bs.length ∧ bs.length + (if b then 257 else 256) ≤ c.toNat + 2

/-! ## The whole machine -/

/-- The invariant holds at reset, whatever the environment holds (R29, R73). -/
def Obligations.ResetMeetsInvariant : Prop :=
  ∀ (r : Realign) (line : Bool) (bytes : List Byte) (t : Terminator) (n : Nat) (emitted : List Byte),
    Inv { State.reset with realign := r, rst := line, input := bytes, term := t, requests := n, out := emitted }

/-- R14 to R26, R33, R50, R73: every step keeps the invariant: the registers' ranges and the agreement of `phase` and
`status`, the buffer's shape, the width as the least that fits, the table's decreasing prefixes, `oldcode` valid and
`finchar` the first byte of its expansion, and the table in its canonical form (log entry 7). -/
def Obligations.StepKeepsInvariant : Prop :=
  ∀ s t : State, Inv s → step s = .next t → Inv t

/-- R72, R93, R128: from a state with the invariant the engine always takes a step: nothing UNDEF is read, no
unwritten or missing entry is touched, no loop runs over its bound. -/
def Obligations.StepNeverStops : Prop :=
  ∀ s : State, Inv s → ∃ t, step s = .next t

/-- R38: a step only appends to the output, in any state. -/
def Obligations.OutputIsAppendOnly : Prop :=
  ∀ s t : State, step s = .next t → ∃ bytes, t.out = s.out ++ bytes

/-- R22: the cursor never moves back once the header is over. -/
def Obligations.CursorNeverMovesBack : Prop :=
  ∀ s t : State, s.rst = false → s.phase ≠ .header → step s = .next t → s.pos ≤ t.pos

/-- R40, R94: under `REALIGN = NONE` a code step moves the cursor by the code's width, or not at all where it ends the
stream or meets the source's error. -/
def Obligations.CursorMovesByCodeWidth : Prop :=
  ∀ s t : State, s.rst = false → s.phase.readsCode = true → s.realign = .none → step s = .next t →
    t.pos = s.pos + s.nBits.toNat ∨ (t.pos = s.pos ∧ (t.phase = .done ∨ t.status = .errSourceIo))

/-- R7, R16, R17: `max_bits` and `block_mode` do not change after the header. -/
def Obligations.HeaderFieldsAreImmutable : Prop :=
  ∀ s t : State, s.rst = false → s.phase ≠ .header → step s = .next t →
    t.maxBits = s.maxBits ∧ t.blockMode = s.blockMode

/-- R14, R89: a code step leaves the width or raises it by one, unless it is a CLEAR, which sets it to 9. -/
def Obligations.WidthGrowsByOneOrIsCleared : Prop :=
  ∀ s t : State, s.rst = false → s.phase.readsCode = true → step s = .next t →
    t.nBits.toNat = s.nBits.toNat ∨ t.nBits.toNat = s.nBits.toNat + 1 ∨
    (s.blockMode = true ∧ t.nBits = 9#5 ∧ t.nextFree = some 257#17 ∧ t.oldcode = none ∧ t.finchar = none)

/-- R31, R33 (b), R122: a code step leaves the table as it is or writes one entry at `next_free`, with the old `oldcode`
and the new `finchar`; every other entry keeps its value, across a CLEAR too. -/
def Obligations.TableIsWrittenOnlyAtNextFree : Prop :=
  ∀ s t : State, s.rst = false → s.phase.readsCode = true → step s = .next t →
    (t.table = s.table ∨
      ∃ nf oc fb, s.nextFree = some nf ∧ s.oldcode = some oc ∧ t.finchar = some fb ∧
        t.nextFree = some (nf + 1#17) ∧ t.table = s.table.write nf.toNat { pfx := oc, sfx := fb }) ∧
    (∀ c : Nat, (∀ nf, s.nextFree = some nf → nf.toNat ≠ c) → t.table.read c = s.table.read c)

/-- R73, with R79 and R82 to R86: where a code step goes on in STEADY, the bytes it has emitted are the expansion of the
new `oldcode` in the new table, and `finchar` is their first byte. -/
def Obligations.SteadyStepEmitsExpansion : Prop :=
  ∀ s t : State, Inv s → s.rst = false → s.phase.readsCode = true → step s = .next t → t.phase = .steady →
    ∃ oc x xs, t.oldcode = some oc ∧ t.finchar = some x ∧ expand t.table oc = some (x :: xs) ∧
      t.out = s.out ++ (x :: xs)

/-- R65, R70, R72, R122: what stands at codes that are not valid is never read: two states that differ only there take
the same step, and differ only there afterwards. -/
def Obligations.InvalidEntriesAreNeverRead : Prop :=
  ∀ (s t : State) (nf : BitVec 17) (m : Memory), s.rst = false → s.phase.readsCode = true → s.nextFree = some nf →
    (∀ c : Code, 256 ≤ c.toNat → valid s.blockMode nf c = true → m.read c.toNat = s.table.read c.toNat) →
    step s = .next t →
    ∃ m', step { s with table := m } = .next { t with table := m' } ∧
      ∀ nf', t.nextFree = some nf' → ∀ c : Code, 256 ≤ c.toNat → valid t.blockMode nf' c = true →
        m'.read c.toNat = t.table.read c.toNat

/-- R94: the phase transitions, complete. -/
def Obligations.PhaseTransitions : Prop :=
  ∀ s t : State, s.rst = false → step s = .next t →
    (s.phase = .header → t.phase = .awaitFirst ∨ t.phase = .fault) ∧
    (s.phase = .awaitFirst → t.phase = .steady ∨ t.phase = .done ∨ t.phase = .fault) ∧
    (s.phase = .steady → t.phase = .steady ∨ t.phase = .cleared ∨ t.phase = .done ∨ t.phase = .fault) ∧
    (s.phase = .cleared → t.phase = .steady ∨ t.phase = .cleared ∨ t.phase = .done ∨ t.phase = .fault) ∧
    (s.phase = .done → t.phase = .done) ∧ (s.phase = .fault → t.phase = .fault)

/-- R25, R102: when a code step takes CorruptStreamError, nothing of that code has been emitted or learned, and the
latches hold a code and the bit index of the first bit of the code processed. -/
def Obligations.CorruptStreamIsPrecise : Prop :=
  ∀ s t : State, s.rst = false → s.phase.readsCode = true → s.status = .running → step s = .next t →
    t.status.corrupt →
    t.phase = .fault ∧ t.out = s.out ∧ t.faultPos = some s.pos ∧ (∃ c, t.faultCode = some c) ∧ t.table = s.table ∧
    t.nextFree = s.nextFree ∧ t.nBits = s.nBits ∧ t.oldcode = s.oldcode ∧ t.finchar = s.finchar ∧
    t.warnTrunc = s.warnTrunc

/-- R97, R102, R104: SourceIOError latches no code and makes no truncation test; under `REALIGN = NONE` it is met only
when a code is read, with nothing consumed, emitted or learned. -/
def Obligations.SourceErrorIsPrecise : Prop :=
  ∀ s t : State, s.rst = false → s.phase.readsCode = true → s.status = .running → step s = .next t →
    t.status = .errSourceIo →
    t.phase = .fault ∧ t.src = .err ∧ t.faultCode = s.faultCode ∧ t.faultPos = s.faultPos ∧
    t.warnTrunc = s.warnTrunc ∧
    (s.realign = .none → t.out = s.out ∧ t.pos = s.pos ∧ t.table = s.table ∧ t.nextFree = s.nextFree ∧
      t.nBits = s.nBits ∧ t.oldcode = s.oldcode ∧ t.finchar = s.finchar)

/-- R68, R71, R72: no step from a state with the invariant takes ERR_CORRUPT_CHAIN. -/
def Obligations.ChainErrorIsUnreachable : Prop :=
  ∀ s t : State, Inv s → s.phase.readsCode = true → step s = .next t → t.status ≠ .errCorruptChain

/-- R19, R20, R21, R28: the status ports show the registers in the encodings of the spec; bit 3 of `status` is set
exactly for the fatal outcomes. -/
def Obligations.PortsShowRegisters : Prop :=
  ∀ s : State,
    s.ports.maxBits = s.maxBits ∧ s.ports.nBits = s.nBits ∧ s.ports.nextFree = s.nextFree ∧ s.ports.pos = s.pos ∧
    s.ports.faultCode = s.faultCode ∧ s.ports.faultPos = s.faultPos ∧
    s.ports.warnTrunc = (if s.warnTrunc then 1#1 else 0#1) ∧
    s.ports.blockMode = (if s.blockMode then 1#1 else 0#1) ∧
    s.ports.src = (match s.src with | .opened => 0#2 | .eos => 1#2 | .err => 2#2) ∧
    s.ports.phase =
      (match s.phase with
        | .header => 0#3 | .awaitFirst => 1#3 | .steady => 2#3 | .cleared => 3#3 | .done => 4#3 | .fault => 5#3) ∧
    s.ports.status =
      (match s.status with
        | .running => 0#4 | .doneOk => 1#4 | .doneTruncated => 2#4 | .errFormatShort => 8#4
        | .errFormatMagic => 9#4 | .errFormatMaxbits => 10#4 | .errCorruptFirst => 11#4 | .errCorruptRange => 12#4
        | .errCorruptPclr => 13#4 | .errCorruptChain => 14#4 | .errSourceIo => 15#4) ∧
    (s.ports.status.getLsbD 3 = true ↔ s.status ≠ .running ∧ s.status ≠ .doneOk ∧ s.status ≠ .doneTruncated)

/-- R78, R58, R102, R90, R61: a code step whose input ends before the code is complete. Every byte left is buffered, the
source has answered its terminator, and nothing is consumed, emitted or learned. The terminator decides: `Err` takes
SourceIOError with the latches kept; `Eos` ends the stream, with the truncated-tail test over the bytes left. That the
working values are fields, dropped at the end of the step, is log entry 2. -/
def Obligations.CodeCutShort : Prop :=
  ∀ s : State, s.rst = false → s.phase.readsCode = true → 9 ≤ s.nBits.toNat → s.nBits.toNat ≤ 16 →
    8 * (pending s).length < s.bitOff.toNat + s.nBits.toNat →
    let stray := 1 < (pending s).length ∨ ∃ b, pending s = [b] ∧ b >>> s.bitOff.toNat ≠ 0#8
    (ending s = .err → step s = .next { s with
      input := [], requests := s.requests + s.input.length + 1, src := .err, buf := pending s, status := .errSourceIo,
      stack := [], phase := .fault, h0 := none, h1 := none, p0 := none }) ∧
    (ending s = .eos → step s = .next { s with
      input := if s.src = .eos then s.input else [],
      requests := if s.src = .eos then s.requests else s.requests + s.input.length + 1,
      src := .eos, buf := pending s, warnTrunc := decide stray,
      status := if stray then .doneTruncated else .doneOk, phase := .done, h0 := none, h1 := none, p0 := none })
end

