-- ==== Sys2Proof/Laws/Memory.lean ====
section
/-! SUPPORT. The laws of the code space's storage (R31): a read after a write, and the canonical form. -/

namespace Sys2Proof.Machine

theorem Memory.read_write_same (m : Memory) (c : Nat) (e : Entry) : (m.write c e).read c = some e := by
  induction m with
  | nil => simp [Memory.write, Memory.read]
  | cons p rest ih =>
    obtain ⟨k, x⟩ := p
    simp only [Memory.write]
    split
    · simp [Memory.read]
    · split
      · simp [Memory.read]
      · have : k ≠ c := by omega
        simp [Memory.read, this, ih]

theorem Memory.read_write_other (m : Memory) {c d : Nat} (e : Entry) (h : d ≠ c) : (m.write c e).read d = m.read d := by
  induction m with
  | nil => simp [Memory.write, Memory.read, Ne.symm h]
  | cons p rest ih =>
    obtain ⟨k, x⟩ := p
    simp only [Memory.write]
    split
    · simp [Memory.read, Ne.symm h]
    · split
      · next hck => simp [Memory.read, Ne.symm h, ← hck]
      · simp only [Memory.read, ih]

theorem Memory.wfFrom_write (m : Memory) (lo c : Nat) (e : Entry) (hw : Memory.wfFrom lo m = true) (hlo : lo ≤ c)
    (hc : c < Config.codeLimit) : Memory.wfFrom lo (m.write c e) = true := by
  induction m generalizing lo with
  | nil => simp_all [Memory.write, Memory.wfFrom]
  | cons p rest ih =>
    obtain ⟨k, x⟩ := p
    simp only [Memory.wfFrom, Bool.and_eq_true, decide_eq_true_eq] at hw
    simp only [Memory.write]
    split
    · simp only [Memory.wfFrom, Bool.and_eq_true, decide_eq_true_eq]
      exact ⟨⟨hlo, hc⟩, ⟨by omega, hw.1.2⟩, hw.2⟩
    · split
      · next h1 h2 =>
        simp only [Memory.wfFrom, Bool.and_eq_true, decide_eq_true_eq]
        exact ⟨⟨hlo, hc⟩, by rw [h2]; exact hw.2⟩
      · simp only [Memory.wfFrom, Bool.and_eq_true, decide_eq_true_eq]
        exact ⟨hw.1, ih (k + 1) hw.2 (by omega)⟩

/-- The one operation that writes the table keeps its canonical form. -/
theorem Memory.wf_write (m : Memory) (c : Nat) (e : Entry) (hw : m.wf = true) (hs : hasStorage c = true) :
    (m.write c e).wf = true := by
  simp only [hasStorage, Bool.and_eq_true, decide_eq_true_eq] at hs
  exact Memory.wfFrom_write m _ c e hw hs.1 hs.2

/-- A canonical memory lists nothing below its first code. -/
theorem Memory.read_eq_none_of_lt (m : Memory) (lo c : Nat) (hw : Memory.wfFrom lo m = true) (h : c < lo) :
    m.read c = none := by
  induction m generalizing lo with
  | nil => rfl
  | cons p rest ih =>
    obtain ⟨k, x⟩ := p
    simp only [Memory.wfFrom, Bool.and_eq_true, decide_eq_true_eq] at hw
    have hk : k ≠ c := by omega
    simp [Memory.read, hk, ih (k + 1) hw.2 (by omega)]

theorem reset_table_wf : State.reset.table.wf = true := rfl

theorem hwReset_table_wf (s : State) : (hwReset s).table.wf = true := rfl

end Sys2Proof.Machine
end

