-- ==== Sys2Proof/Laws/State.lean ====
section
/-! SUPPORT. What each named state update leaves in each field: one lemma per field and update, true by definition. -/

namespace Sys2Proof.Machine

/-! `Emit(b)` (R38) appends to `OUT` and changes nothing else. -/

@[simp] theorem emit_nBits (b : Byte) (s : State) : (emit b s).nBits = s.nBits := rfl
@[simp] theorem emit_nextFree (b : Byte) (s : State) : (emit b s).nextFree = s.nextFree := rfl
@[simp] theorem emit_maxBits (b : Byte) (s : State) : (emit b s).maxBits = s.maxBits := rfl
@[simp] theorem emit_blockMode (b : Byte) (s : State) : (emit b s).blockMode = s.blockMode := rfl
@[simp] theorem emit_oldcode (b : Byte) (s : State) : (emit b s).oldcode = s.oldcode := rfl
@[simp] theorem emit_finchar (b : Byte) (s : State) : (emit b s).finchar = s.finchar := rfl
@[simp] theorem emit_phase (b : Byte) (s : State) : (emit b s).phase = s.phase := rfl
@[simp] theorem emit_status (b : Byte) (s : State) : (emit b s).status = s.status := rfl
@[simp] theorem emit_warnTrunc (b : Byte) (s : State) : (emit b s).warnTrunc = s.warnTrunc := rfl
@[simp] theorem emit_src (b : Byte) (s : State) : (emit b s).src = s.src := rfl
@[simp] theorem emit_pos (b : Byte) (s : State) : (emit b s).pos = s.pos := rfl
@[simp] theorem emit_buf (b : Byte) (s : State) : (emit b s).buf = s.buf := rfl
@[simp] theorem emit_bitOff (b : Byte) (s : State) : (emit b s).bitOff = s.bitOff := rfl
@[simp] theorem emit_grpCnt (b : Byte) (s : State) : (emit b s).grpCnt = s.grpCnt := rfl
@[simp] theorem emit_faultCode (b : Byte) (s : State) : (emit b s).faultCode = s.faultCode := rfl
@[simp] theorem emit_faultPos (b : Byte) (s : State) : (emit b s).faultPos = s.faultPos := rfl
@[simp] theorem emit_stack (b : Byte) (s : State) : (emit b s).stack = s.stack := rfl
@[simp] theorem emit_table (b : Byte) (s : State) : (emit b s).table = s.table := rfl
@[simp] theorem emit_h0 (b : Byte) (s : State) : (emit b s).h0 = s.h0 := rfl
@[simp] theorem emit_h1 (b : Byte) (s : State) : (emit b s).h1 = s.h1 := rfl
@[simp] theorem emit_p0 (b : Byte) (s : State) : (emit b s).p0 = s.p0 := rfl
@[simp] theorem emit_realign (b : Byte) (s : State) : (emit b s).realign = s.realign := rfl
@[simp] theorem emit_rst (b : Byte) (s : State) : (emit b s).rst = s.rst := rfl
@[simp] theorem emit_input (b : Byte) (s : State) : (emit b s).input = s.input := rfl
@[simp] theorem emit_term (b : Byte) (s : State) : (emit b s).term = s.term := rfl
@[simp] theorem emit_requests (b : Byte) (s : State) : (emit b s).requests = s.requests := rfl
@[simp] theorem emit_out (b : Byte) (s : State) : (emit b s).out = s.out ++ [b] := rfl

/-! `raise` (R100) writes the outcome, the latches, `sp` and the phase; every other register keeps its value. -/

@[simp] theorem raise_nBits (st : Status) (fc : Option Code) (fp : Option Nat) (s : State) : (raise st fc fp s).nBits = s.nBits := rfl
@[simp] theorem raise_nextFree (st : Status) (fc : Option Code) (fp : Option Nat) (s : State) : (raise st fc fp s).nextFree = s.nextFree := rfl
@[simp] theorem raise_maxBits (st : Status) (fc : Option Code) (fp : Option Nat) (s : State) : (raise st fc fp s).maxBits = s.maxBits := rfl
@[simp] theorem raise_blockMode (st : Status) (fc : Option Code) (fp : Option Nat) (s : State) : (raise st fc fp s).blockMode = s.blockMode := rfl
@[simp] theorem raise_oldcode (st : Status) (fc : Option Code) (fp : Option Nat) (s : State) : (raise st fc fp s).oldcode = s.oldcode := rfl
@[simp] theorem raise_finchar (st : Status) (fc : Option Code) (fp : Option Nat) (s : State) : (raise st fc fp s).finchar = s.finchar := rfl
@[simp] theorem raise_phase (st : Status) (fc : Option Code) (fp : Option Nat) (s : State) : (raise st fc fp s).phase = .fault := rfl
@[simp] theorem raise_status (st : Status) (fc : Option Code) (fp : Option Nat) (s : State) : (raise st fc fp s).status = st := rfl
@[simp] theorem raise_warnTrunc (st : Status) (fc : Option Code) (fp : Option Nat) (s : State) : (raise st fc fp s).warnTrunc = s.warnTrunc := rfl
@[simp] theorem raise_src (st : Status) (fc : Option Code) (fp : Option Nat) (s : State) : (raise st fc fp s).src = s.src := rfl
@[simp] theorem raise_pos (st : Status) (fc : Option Code) (fp : Option Nat) (s : State) : (raise st fc fp s).pos = s.pos := rfl
@[simp] theorem raise_buf (st : Status) (fc : Option Code) (fp : Option Nat) (s : State) : (raise st fc fp s).buf = s.buf := rfl
@[simp] theorem raise_bitOff (st : Status) (fc : Option Code) (fp : Option Nat) (s : State) : (raise st fc fp s).bitOff = s.bitOff := rfl
@[simp] theorem raise_grpCnt (st : Status) (fc : Option Code) (fp : Option Nat) (s : State) : (raise st fc fp s).grpCnt = s.grpCnt := rfl
@[simp] theorem raise_faultCode (st : Status) (fc : Option Code) (fp : Option Nat) (s : State) : (raise st fc fp s).faultCode = fc.or s.faultCode := rfl
@[simp] theorem raise_faultPos (st : Status) (fc : Option Code) (fp : Option Nat) (s : State) : (raise st fc fp s).faultPos = fp.or s.faultPos := rfl
@[simp] theorem raise_stack (st : Status) (fc : Option Code) (fp : Option Nat) (s : State) : (raise st fc fp s).stack = [] := rfl
@[simp] theorem raise_table (st : Status) (fc : Option Code) (fp : Option Nat) (s : State) : (raise st fc fp s).table = s.table := rfl
@[simp] theorem raise_h0 (st : Status) (fc : Option Code) (fp : Option Nat) (s : State) : (raise st fc fp s).h0 = s.h0 := rfl
@[simp] theorem raise_h1 (st : Status) (fc : Option Code) (fp : Option Nat) (s : State) : (raise st fc fp s).h1 = s.h1 := rfl
@[simp] theorem raise_p0 (st : Status) (fc : Option Code) (fp : Option Nat) (s : State) : (raise st fc fp s).p0 = s.p0 := rfl
@[simp] theorem raise_realign (st : Status) (fc : Option Code) (fp : Option Nat) (s : State) : (raise st fc fp s).realign = s.realign := rfl
@[simp] theorem raise_rst (st : Status) (fc : Option Code) (fp : Option Nat) (s : State) : (raise st fc fp s).rst = s.rst := rfl
@[simp] theorem raise_input (st : Status) (fc : Option Code) (fp : Option Nat) (s : State) : (raise st fc fp s).input = s.input := rfl
@[simp] theorem raise_term (st : Status) (fc : Option Code) (fp : Option Nat) (s : State) : (raise st fc fp s).term = s.term := rfl
@[simp] theorem raise_requests (st : Status) (fc : Option Code) (fp : Option Nat) (s : State) : (raise st fc fp s).requests = s.requests := rfl
@[simp] theorem raise_out (st : Status) (fc : Option Code) (fp : Option Nat) (s : State) : (raise st fc fp s).out = s.out := rfl

/-! `ADVANCE(n)` (R59) moves the cursor and changes nothing else. -/

@[simp] theorem advance_nBits (n : Nat) (s : State) : (advance n s).nBits = s.nBits := rfl
@[simp] theorem advance_nextFree (n : Nat) (s : State) : (advance n s).nextFree = s.nextFree := rfl
@[simp] theorem advance_maxBits (n : Nat) (s : State) : (advance n s).maxBits = s.maxBits := rfl
@[simp] theorem advance_blockMode (n : Nat) (s : State) : (advance n s).blockMode = s.blockMode := rfl
@[simp] theorem advance_oldcode (n : Nat) (s : State) : (advance n s).oldcode = s.oldcode := rfl
@[simp] theorem advance_finchar (n : Nat) (s : State) : (advance n s).finchar = s.finchar := rfl
@[simp] theorem advance_phase (n : Nat) (s : State) : (advance n s).phase = s.phase := rfl
@[simp] theorem advance_status (n : Nat) (s : State) : (advance n s).status = s.status := rfl
@[simp] theorem advance_warnTrunc (n : Nat) (s : State) : (advance n s).warnTrunc = s.warnTrunc := rfl
@[simp] theorem advance_src (n : Nat) (s : State) : (advance n s).src = s.src := rfl
@[simp] theorem advance_pos (n : Nat) (s : State) : (advance n s).pos = s.pos + n := rfl
@[simp] theorem advance_buf (n : Nat) (s : State) : (advance n s).buf = s.buf.drop ((s.bitOff.toNat + n) / 8) := rfl
@[simp] theorem advance_bitOff (n : Nat) (s : State) : (advance n s).bitOff = BitVec.ofNat 3 ((s.bitOff.toNat + n) % 8) := rfl
@[simp] theorem advance_grpCnt (n : Nat) (s : State) : (advance n s).grpCnt = s.grpCnt := rfl
@[simp] theorem advance_faultCode (n : Nat) (s : State) : (advance n s).faultCode = s.faultCode := rfl
@[simp] theorem advance_faultPos (n : Nat) (s : State) : (advance n s).faultPos = s.faultPos := rfl
@[simp] theorem advance_stack (n : Nat) (s : State) : (advance n s).stack = s.stack := rfl
@[simp] theorem advance_table (n : Nat) (s : State) : (advance n s).table = s.table := rfl
@[simp] theorem advance_h0 (n : Nat) (s : State) : (advance n s).h0 = s.h0 := rfl
@[simp] theorem advance_h1 (n : Nat) (s : State) : (advance n s).h1 = s.h1 := rfl
@[simp] theorem advance_p0 (n : Nat) (s : State) : (advance n s).p0 = s.p0 := rfl
@[simp] theorem advance_realign (n : Nat) (s : State) : (advance n s).realign = s.realign := rfl
@[simp] theorem advance_rst (n : Nat) (s : State) : (advance n s).rst = s.rst := rfl
@[simp] theorem advance_input (n : Nat) (s : State) : (advance n s).input = s.input := rfl
@[simp] theorem advance_term (n : Nat) (s : State) : (advance n s).term = s.term := rfl
@[simp] theorem advance_requests (n : Nat) (s : State) : (advance n s).requests = s.requests := rfl
@[simp] theorem advance_out (n : Nat) (s : State) : (advance n s).out = s.out := rfl

/-! The end of a step drops the working values (R27) and changes nothing else. -/

@[simp] theorem dropWork_nBits (s : State) : (dropWork s).nBits = s.nBits := rfl
@[simp] theorem dropWork_nextFree (s : State) : (dropWork s).nextFree = s.nextFree := rfl
@[simp] theorem dropWork_maxBits (s : State) : (dropWork s).maxBits = s.maxBits := rfl
@[simp] theorem dropWork_blockMode (s : State) : (dropWork s).blockMode = s.blockMode := rfl
@[simp] theorem dropWork_oldcode (s : State) : (dropWork s).oldcode = s.oldcode := rfl
@[simp] theorem dropWork_finchar (s : State) : (dropWork s).finchar = s.finchar := rfl
@[simp] theorem dropWork_phase (s : State) : (dropWork s).phase = s.phase := rfl
@[simp] theorem dropWork_status (s : State) : (dropWork s).status = s.status := rfl
@[simp] theorem dropWork_warnTrunc (s : State) : (dropWork s).warnTrunc = s.warnTrunc := rfl
@[simp] theorem dropWork_src (s : State) : (dropWork s).src = s.src := rfl
@[simp] theorem dropWork_pos (s : State) : (dropWork s).pos = s.pos := rfl
@[simp] theorem dropWork_buf (s : State) : (dropWork s).buf = s.buf := rfl
@[simp] theorem dropWork_bitOff (s : State) : (dropWork s).bitOff = s.bitOff := rfl
@[simp] theorem dropWork_grpCnt (s : State) : (dropWork s).grpCnt = s.grpCnt := rfl
@[simp] theorem dropWork_faultCode (s : State) : (dropWork s).faultCode = s.faultCode := rfl
@[simp] theorem dropWork_faultPos (s : State) : (dropWork s).faultPos = s.faultPos := rfl
@[simp] theorem dropWork_stack (s : State) : (dropWork s).stack = s.stack := rfl
@[simp] theorem dropWork_table (s : State) : (dropWork s).table = s.table := rfl
@[simp] theorem dropWork_h0 (s : State) : (dropWork s).h0 = none := rfl
@[simp] theorem dropWork_h1 (s : State) : (dropWork s).h1 = none := rfl
@[simp] theorem dropWork_p0 (s : State) : (dropWork s).p0 = none := rfl
@[simp] theorem dropWork_realign (s : State) : (dropWork s).realign = s.realign := rfl
@[simp] theorem dropWork_rst (s : State) : (dropWork s).rst = s.rst := rfl
@[simp] theorem dropWork_input (s : State) : (dropWork s).input = s.input := rfl
@[simp] theorem dropWork_term (s : State) : (dropWork s).term = s.term := rfl
@[simp] theorem dropWork_requests (s : State) : (dropWork s).requests = s.requests := rfl
@[simp] theorem dropWork_out (s : State) : (dropWork s).out = s.out := rfl

/-! The common effect of FIRST and PLIT (R79, R82). -/

@[simp] theorem startLiteral_nBits (v : Byte) (s : State) : (startLiteral v s).nBits = s.nBits := rfl
@[simp] theorem startLiteral_nextFree (v : Byte) (s : State) : (startLiteral v s).nextFree = s.nextFree := rfl
@[simp] theorem startLiteral_maxBits (v : Byte) (s : State) : (startLiteral v s).maxBits = s.maxBits := rfl
@[simp] theorem startLiteral_blockMode (v : Byte) (s : State) : (startLiteral v s).blockMode = s.blockMode := rfl
@[simp] theorem startLiteral_oldcode (v : Byte) (s : State) : (startLiteral v s).oldcode = some v.toCode := rfl
@[simp] theorem startLiteral_finchar (v : Byte) (s : State) : (startLiteral v s).finchar = some v := rfl
@[simp] theorem startLiteral_phase (v : Byte) (s : State) : (startLiteral v s).phase = .steady := rfl
@[simp] theorem startLiteral_status (v : Byte) (s : State) : (startLiteral v s).status = s.status := rfl
@[simp] theorem startLiteral_warnTrunc (v : Byte) (s : State) : (startLiteral v s).warnTrunc = s.warnTrunc := rfl
@[simp] theorem startLiteral_src (v : Byte) (s : State) : (startLiteral v s).src = s.src := rfl
@[simp] theorem startLiteral_pos (v : Byte) (s : State) : (startLiteral v s).pos = s.pos := rfl
@[simp] theorem startLiteral_buf (v : Byte) (s : State) : (startLiteral v s).buf = s.buf := rfl
@[simp] theorem startLiteral_bitOff (v : Byte) (s : State) : (startLiteral v s).bitOff = s.bitOff := rfl
@[simp] theorem startLiteral_grpCnt (v : Byte) (s : State) : (startLiteral v s).grpCnt = s.grpCnt := rfl
@[simp] theorem startLiteral_faultCode (v : Byte) (s : State) : (startLiteral v s).faultCode = s.faultCode := rfl
@[simp] theorem startLiteral_faultPos (v : Byte) (s : State) : (startLiteral v s).faultPos = s.faultPos := rfl
@[simp] theorem startLiteral_stack (v : Byte) (s : State) : (startLiteral v s).stack = s.stack := rfl
@[simp] theorem startLiteral_table (v : Byte) (s : State) : (startLiteral v s).table = s.table := rfl
@[simp] theorem startLiteral_h0 (v : Byte) (s : State) : (startLiteral v s).h0 = s.h0 := rfl
@[simp] theorem startLiteral_h1 (v : Byte) (s : State) : (startLiteral v s).h1 = s.h1 := rfl
@[simp] theorem startLiteral_p0 (v : Byte) (s : State) : (startLiteral v s).p0 = s.p0 := rfl
@[simp] theorem startLiteral_realign (v : Byte) (s : State) : (startLiteral v s).realign = s.realign := rfl
@[simp] theorem startLiteral_rst (v : Byte) (s : State) : (startLiteral v s).rst = s.rst := rfl
@[simp] theorem startLiteral_input (v : Byte) (s : State) : (startLiteral v s).input = s.input := rfl
@[simp] theorem startLiteral_term (v : Byte) (s : State) : (startLiteral v s).term = s.term := rfl
@[simp] theorem startLiteral_requests (v : Byte) (s : State) : (startLiteral v s).requests = s.requests := rfl
@[simp] theorem startLiteral_out (v : Byte) (s : State) : (startLiteral v s).out = s.out ++ [v] := rfl

/-! CLR's own writes (R81), before the realignment. -/

@[simp] theorem clearDecoder_nBits (s : State) : (clearDecoder s).nBits = 9#5 := rfl
@[simp] theorem clearDecoder_nextFree (s : State) : (clearDecoder s).nextFree = some 257#17 := rfl
@[simp] theorem clearDecoder_maxBits (s : State) : (clearDecoder s).maxBits = s.maxBits := rfl
@[simp] theorem clearDecoder_blockMode (s : State) : (clearDecoder s).blockMode = s.blockMode := rfl
@[simp] theorem clearDecoder_oldcode (s : State) : (clearDecoder s).oldcode = none := rfl
@[simp] theorem clearDecoder_finchar (s : State) : (clearDecoder s).finchar = none := rfl
@[simp] theorem clearDecoder_phase (s : State) : (clearDecoder s).phase = .cleared := rfl
@[simp] theorem clearDecoder_status (s : State) : (clearDecoder s).status = s.status := rfl
@[simp] theorem clearDecoder_warnTrunc (s : State) : (clearDecoder s).warnTrunc = s.warnTrunc := rfl
@[simp] theorem clearDecoder_src (s : State) : (clearDecoder s).src = s.src := rfl
@[simp] theorem clearDecoder_pos (s : State) : (clearDecoder s).pos = s.pos := rfl
@[simp] theorem clearDecoder_buf (s : State) : (clearDecoder s).buf = s.buf := rfl
@[simp] theorem clearDecoder_bitOff (s : State) : (clearDecoder s).bitOff = s.bitOff := rfl
@[simp] theorem clearDecoder_grpCnt (s : State) : (clearDecoder s).grpCnt = s.grpCnt := rfl
@[simp] theorem clearDecoder_faultCode (s : State) : (clearDecoder s).faultCode = s.faultCode := rfl
@[simp] theorem clearDecoder_faultPos (s : State) : (clearDecoder s).faultPos = s.faultPos := rfl
@[simp] theorem clearDecoder_stack (s : State) : (clearDecoder s).stack = s.stack := rfl
@[simp] theorem clearDecoder_table (s : State) : (clearDecoder s).table = s.table := rfl
@[simp] theorem clearDecoder_h0 (s : State) : (clearDecoder s).h0 = s.h0 := rfl
@[simp] theorem clearDecoder_h1 (s : State) : (clearDecoder s).h1 = s.h1 := rfl
@[simp] theorem clearDecoder_p0 (s : State) : (clearDecoder s).p0 = s.p0 := rfl
@[simp] theorem clearDecoder_realign (s : State) : (clearDecoder s).realign = s.realign := rfl
@[simp] theorem clearDecoder_rst (s : State) : (clearDecoder s).rst = s.rst := rfl
@[simp] theorem clearDecoder_input (s : State) : (clearDecoder s).input = s.input := rfl
@[simp] theorem clearDecoder_term (s : State) : (clearDecoder s).term = s.term := rfl
@[simp] theorem clearDecoder_requests (s : State) : (clearDecoder s).requests = s.requests := rfl
@[simp] theorem clearDecoder_out (s : State) : (clearDecoder s).out = s.out := rfl

/-! HDR.CTL's own writes (R77), once the header is accepted. -/

@[simp] theorem acceptHeader_nBits (s : State) : (acceptHeader s).nBits = 9#5 := rfl
@[simp] theorem acceptHeader_nextFree (s : State) : (acceptHeader s).nextFree = some (Config.firstFree s.blockMode) := rfl
@[simp] theorem acceptHeader_maxBits (s : State) : (acceptHeader s).maxBits = s.maxBits := rfl
@[simp] theorem acceptHeader_blockMode (s : State) : (acceptHeader s).blockMode = s.blockMode := rfl
@[simp] theorem acceptHeader_oldcode (s : State) : (acceptHeader s).oldcode = none := rfl
@[simp] theorem acceptHeader_finchar (s : State) : (acceptHeader s).finchar = none := rfl
@[simp] theorem acceptHeader_phase (s : State) : (acceptHeader s).phase = .awaitFirst := rfl
@[simp] theorem acceptHeader_status (s : State) : (acceptHeader s).status = s.status := rfl
@[simp] theorem acceptHeader_warnTrunc (s : State) : (acceptHeader s).warnTrunc = s.warnTrunc := rfl
@[simp] theorem acceptHeader_src (s : State) : (acceptHeader s).src = s.src := rfl
@[simp] theorem acceptHeader_pos (s : State) : (acceptHeader s).pos = 0 := rfl
@[simp] theorem acceptHeader_buf (s : State) : (acceptHeader s).buf = [] := rfl
@[simp] theorem acceptHeader_bitOff (s : State) : (acceptHeader s).bitOff = 0#3 := rfl
@[simp] theorem acceptHeader_grpCnt (s : State) : (acceptHeader s).grpCnt = 0#3 := rfl
@[simp] theorem acceptHeader_faultCode (s : State) : (acceptHeader s).faultCode = s.faultCode := rfl
@[simp] theorem acceptHeader_faultPos (s : State) : (acceptHeader s).faultPos = s.faultPos := rfl
@[simp] theorem acceptHeader_stack (s : State) : (acceptHeader s).stack = s.stack := rfl
@[simp] theorem acceptHeader_table (s : State) : (acceptHeader s).table = s.table := rfl
@[simp] theorem acceptHeader_h0 (s : State) : (acceptHeader s).h0 = s.h0 := rfl
@[simp] theorem acceptHeader_h1 (s : State) : (acceptHeader s).h1 = s.h1 := rfl
@[simp] theorem acceptHeader_p0 (s : State) : (acceptHeader s).p0 = s.p0 := rfl
@[simp] theorem acceptHeader_realign (s : State) : (acceptHeader s).realign = s.realign := rfl
@[simp] theorem acceptHeader_rst (s : State) : (acceptHeader s).rst = s.rst := rfl
@[simp] theorem acceptHeader_input (s : State) : (acceptHeader s).input = s.input := rfl
@[simp] theorem acceptHeader_term (s : State) : (acceptHeader s).term = s.term := rfl
@[simp] theorem acceptHeader_requests (s : State) : (acceptHeader s).requests = s.requests := rfl
@[simp] theorem acceptHeader_out (s : State) : (acceptHeader s).out = s.out := rfl

end Sys2Proof.Machine
end

