-- ==== Sys2Proof/Laws/PerInstr.lean ====
section
/-! SUPPORT. Statements about every instruction as syntax, one lemma per constructor. -/

namespace Sys2Proof.Laws.RowMatch

/-- The row of spec/opcode_table.json an instruction stands in: how many bits the row has, which of them it fixes, and to
what. A header byte fixes none: a byte other than the magic value stands at the same position and is judged later (R75,
R76, R101). -/
def row : Instr → Nat × Nat × Nat
  | .hdrM0 _ | .hdrM1 _ | .hdrCtl _ _ _ => (8, 0, 0)
  | .first _ | .plit _ | .lit _ => (16, 0xFF00, 0)
  | .clr => (16, 0xFFFF, 0x0100)
  | .badFirst _ | .badPclr _ | .ref _ | .kwk _ | .badRange _ => (16, 0, 0)
  | .endStream => (0, 0, 0)

/-- A well-formed instruction's word has the width of its row, fits it, and has the row's fixed bits. -/
def Statement (i : Instr) : Prop :=
  i.WellFormed = true →
    i.encode.1 = (row i).1 ∧ i.encode.2 < 2 ^ (row i).1 ∧ i.encode.2 &&& (row i).2.1 = (row i).2.2

theorem byte_masked (v : Byte) : v.toNat &&& 0xFF00 = 0 := by
  revert v
  decide

theorem byte_fits (v : Byte) : v.toNat < 2 ^ 16 := Nat.lt_trans v.isLt (by decide)

theorem hdrM0 (a : Byte) : Statement (.hdrM0 a) := fun _ => ⟨rfl, a.isLt, Nat.and_zero _⟩
theorem hdrM1 (a : Byte) : Statement (.hdrM1 a) := fun _ => ⟨rfl, a.isLt, Nat.and_zero _⟩
theorem hdrCtl (b : Bool) (r : BitVec 2) (m : BitVec 5) : Statement (.hdrCtl b r m) :=
  fun _ => ⟨rfl, (encodeCtl b r m).isLt, Nat.and_zero _⟩
theorem first (v : Byte) : Statement (.first v) :=
  fun _ => ⟨rfl, byte_fits v, byte_masked v⟩
theorem badFirst (c : Code) : Statement (.badFirst c) := fun _ => ⟨rfl, c.isLt, Nat.and_zero _⟩
theorem clr : Statement .clr := fun _ => by decide
theorem plit (v : Byte) : Statement (.plit v) :=
  fun _ => ⟨rfl, byte_fits v, byte_masked v⟩
theorem badPclr (c : Code) : Statement (.badPclr c) := fun _ => ⟨rfl, c.isLt, Nat.and_zero _⟩
theorem lit (v : Byte) : Statement (.lit v) :=
  fun _ => ⟨rfl, byte_fits v, byte_masked v⟩
theorem ref (c : Code) : Statement (.ref c) := fun _ => ⟨rfl, c.isLt, Nat.and_zero _⟩
theorem kwk (c : Code) : Statement (.kwk c) := fun _ => ⟨rfl, c.isLt, Nat.and_zero _⟩
theorem badRange (c : Code) : Statement (.badRange c) := fun _ => ⟨rfl, c.isLt, Nat.and_zero _⟩
theorem endStream : Statement .endStream := fun _ => by decide

end Sys2Proof.Laws.RowMatch
end

