-- ==== Sys2Proof/Laws/Reader.lean ====
section
/-! SUPPORT. What the BitReader's operations can do (R36, R55 to R60), one lemma per operation. -/

namespace Sys2Proof.Machine

/-! ## Frames -/

@[simp] theorem ReaderFrame.refl (s : State) : ReaderFrame s s := rfl

theorem ReaderFrame.trans {s t u : State} (h1 : ReaderFrame s t) (h2 : ReaderFrame t u) : ReaderFrame s u := by
  unfold ReaderFrame at *
  rw [h2, h1]

theorem ReaderFrame.advance (n : Nat) (s : State) : ReaderFrame s (advance n s) := rfl

theorem ReaderFrame.countCode (s : State) : ReaderFrame s (countCode s) := by
  unfold Machine.countCode
  split <;> rfl

/-! ## The source -/

/-- A byte is taken from the input, or the source's terminator is answered and remembered (R36). -/
theorem srcNext_cases (s : State) :
    (∃ b rest, s.src ≠ .eos ∧ s.input = b :: rest ∧
      srcNext s = (.byte b, { s with input := rest, requests := s.requests + 1 })) ∨
    (s.src = .eos ∧ srcNext s = (.eos, s)) ∨
    (s.src ≠ .eos ∧ s.input = [] ∧ s.term = .eos ∧
      srcNext s = (.eos, { s with src := .eos, requests := s.requests + 1 })) ∨
    (s.src ≠ .eos ∧ s.input = [] ∧ s.term = .err ∧
      srcNext s = (.err, { s with src := .err, requests := s.requests + 1 })) := by
  unfold srcNext
  by_cases h : s.src = .eos
  · simp [h]
  · rcases hi : s.input with _ | ⟨b, rest⟩
    · rcases ht : s.term with _ | _ <;> simp [h]
    · simp [h]

/-- `FETCH` puts the byte behind the bytes buffered (R56); `bit_off` and `pos` do not change. -/
theorem fetchByte_cases (s : State) :
    (∃ b rest, s.src ≠ .eos ∧ s.input = b :: rest ∧
      fetchByte s = (.ok, { s with input := rest, requests := s.requests + 1, buf := s.buf ++ [b] })) ∨
    (s.src = .eos ∧ fetchByte s = (.eos, s)) ∨
    (s.src ≠ .eos ∧ s.input = [] ∧ s.term = .eos ∧
      fetchByte s = (.eos, { s with src := .eos, requests := s.requests + 1 })) ∨
    (s.src ≠ .eos ∧ s.input = [] ∧ s.term = .err ∧
      fetchByte s = (.err, { s with src := .err, requests := s.requests + 1 })) := by
  unfold fetchByte
  rcases srcNext_cases s with ⟨b, rest, h1, h2, h3⟩ | ⟨h1, h3⟩ | ⟨h1, h2, ht, h3⟩ | ⟨h1, h2, ht, h3⟩
  · exact .inl ⟨b, rest, h1, h2, by rw [h3]⟩
  · exact .inr (.inl ⟨h1, by rw [h3]⟩)
  · exact .inr (.inr (.inl ⟨h1, h2, ht, by rw [h3]⟩))
  · exact .inr (.inr (.inr ⟨h1, h2, ht, by rw [h3]⟩))

theorem avail_eq (s : State) : avail s = 8 * s.buf.length - s.bitOff.toNat := rfl

/-- The invariant part of a fetch (R55): with a byte buffered, `AVAIL` is positive. -/
theorem avail_eq_zero (s : State) : avail s = 0 ↔ s.buf = [] := by
  have := s.bitOff.isLt
  rw [avail_eq]
  constructor
  · intro h
    have : s.buf.length = 0 := by omega
    simpa using this
  · intro h
    simp [h]

/-! ## READ_CODE -/

/-- A code cut at width `w` fits `w` bits (R49). -/
theorem codeValue_lt (w off : Nat) (bytes : List Byte) (hw : w ≤ 16) : (codeValue w off bytes).toNat < 2 ^ w := by
  have h16 : 2 ^ w ≤ 2 ^ 16 := Nat.pow_le_pow_right (by omega) hw
  have hpos : 0 < 2 ^ w := Nat.two_pow_pos w
  have hm : (BitVec.ofNat 24 (2 ^ w - 1)).toNat = 2 ^ w - 1 := by
    rw [BitVec.toNat_ofNat]; exact Nat.mod_eq_of_lt (by omega)
  have hand : ((window bytes >>> off) &&& BitVec.ofNat 24 (2 ^ w - 1)).toNat ≤ 2 ^ w - 1 := by
    rw [BitVec.toNat_and, hm]
    exact Nat.and_le_right
  have hle := Nat.mod_le ((window bytes >>> off) &&& BitVec.ofNat 24 (2 ^ w - 1)).toNat (2 ^ 16)
  unfold codeValue
  rw [BitVec.toNat_setWidth]
  omega

/-- How a fetch loop ends, with the bytes it has taken (R56, R58, R37): enough bits are buffered, or the terminator has
been answered and every byte of the input is in the buffer. Bytes are taken only while they are needed. -/
structure FillResult (w : Nat) (s : State) (a : FetchAns) (t : State) (taken : List Byte) : Prop where
  frame : t = { s with buf := s.buf ++ taken, input := t.input, src := t.src, requests := t.requests }
  taken_input : s.input = taken ++ t.input
  taken_open : s.src = .eos → taken = []
  needed : (s.buf = [] → s.bitOff = 0#3) → taken = [] ∨ avail s + 8 * (taken.length - 1) < w
  ok : a = .ok → w ≤ avail t ∧ t.src = s.src ∧ t.requests = s.requests + taken.length
  eos : a = .eos → avail t < w ∧ t.src = .eos ∧ (s.src = .eos ∨ t.input = []) ∧ ending s = .eos ∧
    t.requests = s.requests + taken.length + (if s.src = .eos then 0 else 1)
  err : a = .err → avail t < w ∧ s.src ≠ .eos ∧ t.src = .err ∧ t.input = [] ∧ ending s = .err ∧
    t.requests = s.requests + taken.length + 1

theorem fill_cases (fuel w : Nat) (s : State) (hw : w + s.bitOff.toNat ≤ 8 * (s.buf.length + fuel)) :
    ∃ a t taken, fill fuel w s = .ok a t ∧ FillResult w s a t taken := by
  induction fuel generalizing s with
  | zero =>
    have h : w ≤ avail s := by rw [avail_eq]; omega
    refine ⟨.ok, s, [], by simp [fill, h], ?_⟩
    constructor <;> simp [h]
  | succ n ih =>
    by_cases h : w ≤ avail s
    · refine ⟨.ok, s, [], by simp [fill, h], ?_⟩
      constructor <;> simp [h]
    · have hlt : avail s < w := by omega
      rcases fetchByte_cases s with ⟨b, rest, h1, h2, h3⟩ | ⟨h1, h3⟩ | ⟨h1, h2, ht, h3⟩ | ⟨h1, h2, ht, h3⟩
      · obtain ⟨a, t, taken, hr, hf⟩ := ih { s with input := rest, requests := s.requests + 1, buf := s.buf ++ [b] }
          (by simp only [List.length_append, List.length_singleton]; omega)
        refine ⟨a, t, b :: taken, by rw [fill]; simp [h, h3, hr], ?_⟩
        have hav : avail { s with input := rest, requests := s.requests + 1, buf := s.buf ++ [b] } = avail s + 8 ∨
            avail { s with input := rest, requests := s.requests + 1, buf := s.buf ++ [b] } ≤ 8 ∧ avail s = 0 := by
          have := s.bitOff.isLt
          simp only [avail_eq, List.length_append, List.length_singleton]
          omega
        refine ⟨?_, ?_, ?_, ?_, ?_, ?_, ?_⟩
        · rw [hf.frame]; simp
        · have := hf.taken_input
          simp only at this
          rw [h2, this]; rfl
        · exact fun he => absurd he h1
        · intro h0
          right
          have := s.bitOff.isLt
          have hb0 : s.buf.length = 0 → s.bitOff.toNat = 0 := fun hl => by rw [h0 (by simpa using hl)]; rfl
          rcases hf.needed (by simp) with hn | hn
          · simp [hn, hlt]
          · have hl : taken = [] ∨ 0 < taken.length := by cases taken <;> simp
            rcases hl with hl | hl
            · simp [hl, hlt]
            · simp only [List.length_cons, Nat.add_sub_cancel]
              simp only [avail_eq, List.length_append, List.length_singleton] at hn hlt ⊢
              omega
        · intro ha; obtain ⟨p, q, r⟩ := hf.ok ha
          exact ⟨p, q, by simp at r ⊢; omega⟩
        · intro ha; obtain ⟨p, q, r, u, v⟩ := hf.eos ha
          refine ⟨p, q, r, u, ?_⟩
          simp at v ⊢; omega
        · intro ha; obtain ⟨p, q, r, u, v, x⟩ := hf.err ha
          refine ⟨p, q, r, u, v, ?_⟩
          simp at x ⊢; omega
      · refine ⟨.eos, s, [], by rw [fill]; simp [h, h3], ?_⟩
        exact ⟨by simp, by simp, by simp, by simp, by simp, by simp [hlt, h1, ending], by simp⟩
      · refine ⟨.eos, { s with src := .eos, requests := s.requests + 1 }, [], by rw [fill]; simp [h, h3], ?_⟩
        constructor <;> simp [h1, h2, ht, ending]
        simpa [avail_eq] using hlt
      · refine ⟨.err, { s with src := .err, requests := s.requests + 1 }, [], by rw [fill]; simp [h, h3], ?_⟩
        constructor <;> simp [h1, h2, ht, ending]
        simpa [avail_eq] using hlt

/-- What `READ_CODE(w)` can do (R58): a code cut from the cursor and the cursor moved by `w`, or nothing consumed. -/
theorem readCode_cases (w : Nat) (s : State) (hw : w ≤ Config.maxBitsLimit) :
    ∃ a t taken, FillResult w s a t taken ∧
      ((a = .ok ∧ readCode w s = .ok (.code (codeValue w s.bitOff.toNat t.buf)) (countCode (advance w t))) ∨
       (a = .eos ∧ readCode w s = .ok .eos t) ∨ (a = .err ∧ readCode w s = .ok .err t)) := by
  have := s.bitOff.isLt
  obtain ⟨a, t, taken, hr, hf⟩ := fill_cases Config.bufBytes w s (by simp only [Config.bufBytes]; simp only [Config.maxBitsLimit] at hw; omega)
  have hb : t.bitOff = s.bitOff := by rw [hf.frame]
  refine ⟨a, t, taken, hf, ?_⟩
  cases a <;> simp [readCode, hr, Flow.andThen, hb]

theorem readCode_frame {w : Nat} {s t : State} {a : ReadAns} (hw : w ≤ Config.maxBitsLimit)
    (h : readCode w s = .ok a t) : ReaderFrame s t := by
  obtain ⟨a', t', taken, hf, hc⟩ := readCode_cases w s hw
  have hft : ReaderFrame s t' := by unfold ReaderFrame; rw [hf.frame]
  rcases hc with ⟨_, hc⟩ | ⟨_, hc⟩ | ⟨_, hc⟩ <;> rw [hc] at h <;> injection h with h1 h2 <;> subst h2
  · exact (hft.trans (ReaderFrame.advance w t')).trans (ReaderFrame.countCode _)
  · exact hft
  · exact hft

/-! ## REALIGN_SKIP -/

/-- How a skip of `n` bits ends (R60): all of them skipped, or the terminator met with the buffer empty. -/
structure SkipResult (n : Nat) (s : State) (a : FetchAns) (t : State) : Prop where
  frame : t = { s with pos := t.pos, buf := t.buf, bitOff := t.bitOff, src := t.src, input := t.input, requests := t.requests }
  ok : a = .ok → t.pos = s.pos + n ∧ t.src = s.src
  short : a ≠ .ok → t.buf = [] ∧ s.pos ≤ t.pos ∧ t.pos < s.pos + n
  eos : a = .eos → t.src = .eos ∧ ending s = .eos
  err : a = .err → t.src = .err ∧ t.input = [] ∧ ending s = .err
  buffer : BufferOk s → BufferOk t
  cursor : (s.buf = [] → s.bitOff = 0#3) → Skipped n s t ∧ (a = .ok ↔ n ≤ bitsLeft s)

theorem advance_bufferOk {n : Nat} {s : State} (hn : n ≤ avail s) (h : BufferOk s) : BufferOk (advance n s) := by
  have := s.bitOff.isLt
  obtain ⟨h1, h2, h3⟩ := h
  rw [avail_eq] at hn
  refine ⟨?_, ?_, ?_⟩
  · simp only [advance_buf, List.length_drop]; omega
  · intro hb
    simp only [advance_buf, List.drop_eq_nil_iff] at hb
    simp only [advance_bitOff]
    have : s.buf.length = 0 ∨ 8 * s.buf.length = s.bitOff.toNat + n := by omega
    rcases this with h0 | h0
    · have := h2 (by simpa using h0)
      have hz : n = 0 := by omega
      simp [this, hz]
    · have : (s.bitOff.toNat + n) % 8 = 0 := by omega
      simp [this]
  · simp only [advance_pos, advance_bitOff, BitVec.toNat_ofNat]
    omega

/-- Skipping within the buffer leaves what is still to be read (R59, R60). -/
theorem pending_advance {m : Nat} {s : State} (hm : m ≤ avail s) (h0 : 0 < m) :
    pending (advance m s) = (pending s).drop ((s.bitOff.toNat + m) / 8) := by
  rw [avail_eq] at hm
  simp only [pending, advance_buf, advance_src, advance_input]
  rw [List.drop_append_of_le_length (by omega)]
  rfl

theorem pending_fetched {s : State} {b : Byte} {rest : List Byte} (h1 : s.src ≠ .eos) (h2 : s.input = b :: rest) :
    pending { s with input := rest, requests := s.requests + 1, buf := s.buf ++ [b] } = pending s := by
  simp [pending, h1, h2]

theorem pending_empty {s : State} (hb : s.buf = []) (h : s.src = .eos ∨ s.input = []) : pending s = [] := by
  rcases h with h | h <;> simp [pending, hb, h]

/-! ### How a skip is put together, one turn of its loop at a time -/

theorem Skipped.zero (s : State) : Skipped 0 s s := by
  have := s.bitOff.isLt
  refine ⟨fun _ => ⟨rfl, by omega, ?_, rfl, ?_, ?_⟩, fun h => absurd h (Nat.not_lt_zero _)⟩
  · rw [show (s.bitOff.toNat + 0) / 8 = 0 by omega]; rfl
  · rw [show skipBytes 0 s = 0 by unfold skipBytes; omega]; rfl
  · rw [show skipBytes 0 s = 0 by unfold skipBytes; omega]; rfl

/-- The skip meets the terminator with nothing buffered. -/
theorem Skipped.ended {n : Nat} {s t : State} (hn : n ≠ 0) (hp : pending s = []) (h0 : s.bitOff = 0#3)
    (hpos : t.pos = s.pos) (hbuf : t.buf = []) (hoff : t.bitOff = s.bitOff)
    (hsrc : t.src = (if ending s = .eos then .eos else .err))
    (hin : t.input = (if s.src = .eos then s.input else []))
    (hreq : t.requests = s.requests + (if s.src = .eos then 0 else s.input.length + 1)) :
    Skipped n s t ∧ ¬ n ≤ bitsLeft s := by
  have hl : bitsLeft s = 0 := by simp [bitsLeft, hp]
  refine ⟨⟨fun h => absurd h (by omega), fun _ => ⟨by omega, hbuf, by rw [hoff, h0], hsrc, hin, hreq⟩⟩, by omega⟩

/-- The skip takes a byte into the empty buffer. -/
theorem Skipped.fetched {n : Nat} {s t : State} {b : Byte} {rest : List Byte} (hn : n ≠ 0) (hb : s.buf = [])
    (h0 : s.bitOff = 0#3) (h1 : s.src ≠ .eos) (h2 : s.input = b :: rest)
    (h : Skipped n { s with input := rest, requests := s.requests + 1, buf := s.buf ++ [b] } t) : Skipped n s t := by
  have hl : bitsLeft { s with input := rest, requests := s.requests + 1, buf := s.buf ++ [b] } = bitsLeft s := by
    simp only [bitsLeft, pending_fetched h1 h2]
  have hk : skipBytes n s = skipBytes n { s with input := rest, requests := s.requests + 1, buf := s.buf ++ [b] } + 1 := by
    simp only [skipBytes, avail_eq, hb, h0, List.nil_append, List.length_nil, List.length_singleton, BitVec.toNat_ofNat]
    omega
  constructor
  · intro hle
    obtain ⟨q1, q2, q3, q4, q5, q6⟩ := h.enough (by rw [hl]; exact hle)
    refine ⟨q1, q2, by rw [q3, pending_fetched h1 h2], q4, ?_, ?_⟩
    · rw [q5, h2, hk, List.drop_succ_cons]
    · simp only at q6; omega
  · intro hlt
    obtain ⟨q1, q2, q3, q4, q5, q6⟩ := h.short (by rw [hl]; exact hlt)
    refine ⟨by rw [q1, hl], q2, q3, q4, ?_, ?_⟩
    · simpa [h1] using q5
    · simp only [h1, if_false, h2, List.length_cons] at q6 ⊢; omega

/-- The skip consumes what is buffered, as far as it needs it. -/
theorem Skipped.advanced {n : Nat} {s t : State} (ha : 0 < min n (avail s))
    (h : Skipped (n - min n (avail s)) (advance (min n (avail s)) s) t) :
    Skipped n s t ∧ (n - min n (avail s) ≤ bitsLeft (advance (min n (avail s)) s) ↔ n ≤ bitsLeft s) := by
  have hle : min n (avail s) ≤ avail s := Nat.min_le_right ..
  have hav := avail_eq s
  have hlen : s.buf.length ≤ (pending s).length := by unfold pending; rw [List.length_append]; omega
  have hpd := pending_advance hle ha
  have hl : bitsLeft (advance (min n (avail s)) s) = bitsLeft s - min n (avail s) := by
    simp only [bitsLeft, hpd, List.length_drop, advance_bitOff, BitVec.toNat_ofNat]
    omega
  have hk : skipBytes (n - min n (avail s)) (advance (min n (avail s)) s) = skipBytes n s := by
    have : avail (advance (min n (avail s)) s) = avail s - min n (avail s) := by
      simp only [avail_eq, advance_buf, advance_bitOff, List.length_drop, BitVec.toNat_ofNat] at *
      omega
    simp only [skipBytes, this]
    omega
  have hb : min n (avail s) ≤ bitsLeft s := by unfold bitsLeft; omega
  refine ⟨⟨fun hn => ?_, fun hn => ?_⟩, by omega⟩
  · obtain ⟨q1, q2, q3, q4, q5, q6⟩ := h.enough (by omega)
    simp only [advance_pos, advance_bitOff, BitVec.toNat_ofNat] at q1 q2 q3
    refine ⟨by omega, by omega, ?_, q4, by rw [q5, hk]; rfl, by rw [q6, hk]; rfl⟩
    rw [q3, hpd, List.drop_drop]
    congr 1
    omega
  · obtain ⟨q1, q2, q3, q4, q5, q6⟩ := h.short (by omega)
    simp only [advance_pos] at q1
    exact ⟨by omega, q2, q3, q4, q5, q6⟩

theorem skipBits_cases (fuel n : Nat) (s : State)
    (hf : 2 * n + (if avail s = 0 then 1 else 0) ≤ fuel ∨ n = 0) :
    ∃ a t, skipBits fuel n s = .ok a t ∧ SkipResult n s a t := by
  induction fuel generalizing n s with
  | zero =>
    have hn : n = 0 := by omega
    subst hn
    exact ⟨.ok, s, by simp [skipBits], by constructor <;> simp [Skipped.zero]⟩
  | succ k ih =>
    by_cases hn : n = 0
    · subst hn
      exact ⟨.ok, s, by simp [skipBits], by constructor <;> simp [Skipped.zero]⟩
    by_cases ha : avail s = 0
    · have hb : s.buf = [] := (avail_eq_zero s).1 ha
      rcases fetchByte_cases s with ⟨b, rest, h1, h2, h3⟩ | ⟨h1, h3⟩ | ⟨h1, h2, ht, h3⟩ | ⟨h1, h2, ht, h3⟩
      · have hav : avail { s with input := rest, requests := s.requests + 1, buf := s.buf ++ [b] } ≠ 0 := by
          rw [ne_eq, avail_eq_zero]; simp
        obtain ⟨a, t, hr, hs⟩ := ih n { s with input := rest, requests := s.requests + 1, buf := s.buf ++ [b] }
          (by left; rw [if_neg hav]; rw [if_pos ha] at hf; omega)
        refine ⟨a, t, by rw [skipBits]; simp [hn, ha, h3, hr], ?_⟩
        constructor
        · rw [hs.frame]
        · exact fun h => hs.ok h
        · exact fun h => hs.short h
        · exact fun h => ⟨(hs.eos h).1, by simpa [ending] using (hs.eos h).2⟩
        · exact fun h => ⟨(hs.err h).1, (hs.err h).2.1, by simpa [ending] using (hs.err h).2.2⟩
        · intro hB
          apply hs.buffer
          obtain ⟨q1, q2, q3⟩ := hB
          refine ⟨by simp [hb, Config.bufBytes], by simp, ?_⟩
          exact q3
        · intro hz
          obtain ⟨q1, q2⟩ := hs.cursor (by simp)
          exact ⟨q1.fetched hn hb (hz hb) h1 h2, by rw [q2]; simp only [bitsLeft, pending_fetched h1 h2]⟩
      · have hp := pending_empty hb (.inl h1)
        refine ⟨.eos, s, by rw [skipBits]; simp [hn, ha, h3], ?_⟩
        refine ⟨rfl, by simp, by simp [hb]; omega, by simp [h1, ending], by simp, fun h => h, fun hz => ?_⟩
        have := Skipped.ended (t := s) hn hp (hz hb) rfl hb rfl (by simp [h1, ending]) (by simp [h1]) (by simp [h1])
        exact ⟨this.1, by simp [this.2]⟩
      · have hp := pending_empty hb (.inr h2)
        refine ⟨.eos, { s with src := .eos, requests := s.requests + 1 }, by rw [skipBits]; simp [hn, ha, h3], ?_⟩
        refine ⟨rfl, by simp, by simp [hb]; omega, by simp [h1, ht, ending], by simp, ?_, fun hz => ?_⟩
        · exact fun h => h
        · have := Skipped.ended (t := { s with src := .eos, requests := s.requests + 1 }) hn hp (hz hb) rfl hb rfl
            (by simp [h1, ht, ending]) (by simp [h1, h2]) (by simp [h1, h2])
          exact ⟨this.1, by simp [this.2]⟩
      · have hp := pending_empty hb (.inr h2)
        refine ⟨.err, { s with src := .err, requests := s.requests + 1 }, by rw [skipBits]; simp [hn, ha, h3], ?_⟩
        refine ⟨rfl, by simp, by simp [hb]; omega, by simp, by simp [h1, h2, ht, ending], ?_, fun hz => ?_⟩
        · exact fun h => h
        · have := Skipped.ended (t := { s with src := .err, requests := s.requests + 1 }) hn hp (hz hb) rfl hb rfl
            (by simp [h1, ht, ending]) (by simp [h1, h2]) (by simp [h1, h2])
          exact ⟨this.1, by simp [this.2]⟩
    · have hm : 0 < min n (avail s) := by omega
      have hle : min n (avail s) ≤ avail s := Nat.min_le_right ..
      have hle2 : min n (avail s) ≤ n := Nat.min_le_left ..
      obtain ⟨a, t, hr, hs⟩ := ih (n - min n (avail s)) (advance (min n (avail s)) s) (by
        by_cases hz : n - min n (avail s) = 0
        · exact .inr hz
        · left; rw [if_neg ha] at hf; split <;> omega)
      refine ⟨a, t, by rw [skipBits]; simp [hn, ha, hr], ?_⟩
      constructor
      · rw [hs.frame]; rfl
      · intro h; obtain ⟨p, q⟩ := hs.ok h
        refine ⟨?_, q⟩
        rw [p, advance_pos]; omega
      · intro h; obtain ⟨p, q, r⟩ := hs.short h
        simp only [advance_pos] at q r
        exact ⟨p, by omega, by omega⟩
      · exact fun h => hs.eos h
      · exact fun h => hs.err h
      · exact fun hB => hs.buffer (advance_bufferOk hle hB)
      · intro hz
        obtain ⟨q1, q2⟩ := hs.cursor (by
          intro hb
          rw [avail_eq] at hle
          simp only [advance_buf, List.drop_eq_nil_iff] at hb
          have : (s.bitOff.toNat + min n (avail s)) % 8 = 0 := by rw [avail_eq] at *; omega
          simp only [advance_bitOff, this])
        obtain ⟨q3, q4⟩ := q1.advanced hm
        exact ⟨q3, q2.trans q4⟩

/-- What `REALIGN_SKIP(w_old)` can do (R60): nothing under `NONE`; a skip of the rest of the group under `GROUP8`. -/
theorem realignSkip_cases (wOld : Nat) (s : State) :
    (s.realign = .none ∧ realignSkip wOld s = .ok .ok s) ∨
    (s.realign = .group8 ∧ ∃ a t, realignSkip wOld s = .ok a t ∧
      SkipResult (skipLength s.grpCnt wOld) { s with grpCnt := 0#3 } a t) := by
  unfold realignSkip
  rcases hr : s.realign with _ | _
  · exact .inl ⟨rfl, rfl⟩
  · right
    refine ⟨rfl, ?_⟩
    apply skipBits_cases
    left; split <;> omega

theorem SkipResult.forward {n : Nat} {s t : State} {a : FetchAns} (h : SkipResult n s a t) : s.pos ≤ t.pos := by
  by_cases ha : a = .ok
  · have := (h.ok ha).1
    omega
  · exact (h.short ha).2.1

theorem realignSkip_frame {wOld : Nat} {s t : State} {a : FetchAns} (h : realignSkip wOld s = .ok a t) :
    ReaderFrame s t := by
  rcases realignSkip_cases wOld s with ⟨_, hc⟩ | ⟨_, a', t', hc, hs⟩
  · rw [hc] at h; injection h with _ h2; subst h2; rfl
  · rw [hc] at h; injection h with _ h2; subst h2
    unfold ReaderFrame; rw [hs.frame]

end Sys2Proof.Machine
end

