-- ==== Sys2Proof/Laws/Table.lean ====
section
/-! SUPPORT. What the stack and the CodeTable's operations can do (R34, R66 to R71, R88, R89, R91), one lemma per
operation. -/

namespace Sys2Proof.Machine

/-! ## The stack -/

theorem push_ok {s : State} (cur : Code) (b : Byte) (h : s.stack.length < Config.stackDepth) :
    push cur b s = .ok () { s with stack := b :: s.stack } := by
  simp only [push, Config.stackDepth] at *
  rw [if_neg (by omega)]

theorem push_full {s : State} (cur : Code) (b : Byte) (h : Config.stackDepth ≤ s.stack.length) :
    push cur b s = .raised (raiseCorrupt .errCorruptChain cur s) := by
  simp only [push]
  rw [if_pos h]

theorem emitStackLoop_eq (n : Nat) (s : State) (h : s.stack.length ≤ n) :
    emitStackLoop n s = { s with out := s.out ++ s.stack, stack := [] } := by
  induction n generalizing s with
  | zero =>
    have hs : s.stack = [] := by simpa using h
    have hh : s = { s with stack := [] } := by rw [← hs]
    simp only [emitStackLoop, hs, List.append_nil]
    exact hh
  | succ n ih =>
    rcases hs : s.stack with _ | ⟨b, rest⟩
    · have hh : s = { s with stack := [] } := by rw [← hs]
      simp only [emitStackLoop, pop, hs, List.append_nil]
      exact hh
    · simp only [emitStackLoop, pop, hs]
      rw [ih _ (by simp [hs] at h; simpa [emit] using h)]
      simp [emit]

/-- `EMIT_STACK` (R91) sends the whole stack, top first. -/
theorem emitStack_eq (s : State) : emitStack s = { s with out := s.out ++ s.stack, stack := [] } :=
  emitStackLoop_eq _ s (Nat.le_refl _)

/-! ## Codes -/

theorem isLiteral_iff (c : Code) : isLiteral c = true ↔ c.toNat < 256 := by simp [isLiteral, Config.nLiterals]

theorem firstFree_bounds (b : Bool) : 256 ≤ (Config.firstFree b).toNat ∧ (Config.firstFree b).toNat ≤ 257 := by
  cases b <;> decide

theorem valid_iff (b : Bool) (nf : BitVec 17) (c : Code) :
    valid b nf c = true ↔ c.toNat < 256 ∨ ((Config.firstFree b).toNat ≤ c.toNat ∧ c.toNat < nf.toNat) := by
  simp [valid, isLiteral_iff]

/-- A code that is valid stays valid while `next_free` does not fall (R72). -/
theorem valid_mono {b : Bool} {nf nf' : BitVec 17} {c : Code} (h : valid b nf c = true) (hn : nf.toNat ≤ nf'.toNat) :
    valid b nf' c = true := by
  rw [valid_iff] at *
  omega

theorem toCode_toNat (v : Byte) : v.toCode.toNat = v.toNat := by
  have := v.isLt
  simp [Byte.toCode]
  omega

theorem isLiteral_toCode (v : Byte) : isLiteral v.toCode = true := by
  rw [isLiteral_iff, toCode_toNat]
  exact v.isLt

theorem low_toCode (v : Byte) : Code.low v.toCode = v := by
  apply BitVec.eq_of_toNat_eq
  have := v.isLt
  simp [Code.low, Byte.toCode]

theorem toCode_low {c : Code} (h : isLiteral c = true) : c.low.toCode = c := by
  rw [isLiteral_iff] at h
  apply BitVec.eq_of_toNat_eq
  simp [Code.low, Byte.toCode]
  omega

/-! ## Expansions -/

theorem expandFuel_literal (n : Nat) (m : Memory) {c : Code} (h : isLiteral c = true) :
    expandFuel n m c = some [c.low] := by
  unfold expandFuel
  simp [h]

theorem expand_literal (m : Memory) {c : Code} (h : isLiteral c = true) : expand m c = some [c.low] :=
  expandFuel_literal _ m h

theorem expandFuel_more {n k : Nat} {m : Memory} {c : Code} {bs : List Byte} (h : expandFuel n m c = some bs)
    (hk : n ≤ k) : expandFuel k m c = some bs := by
  induction n generalizing k c bs with
  | zero =>
    by_cases hl : isLiteral c = true
    · rw [expandFuel_literal _ _ hl] at *
      exact h
    · simp [expandFuel, hl] at h
  | succ n ih =>
    by_cases hl : isLiteral c = true
    · rw [expandFuel_literal _ _ hl] at *
      exact h
    · obtain ⟨k, rfl⟩ : ∃ j, k = j + 1 := ⟨k - 1, by omega⟩
      rw [expandFuel] at h ⊢
      simp only [hl, Bool.false_eq_true, if_false] at h ⊢
      rcases hr : m.read c.toNat with _ | e
      · simp [hr] at h
      · simp only [hr] at h ⊢
        rcases hx : expandFuel n m e.pfx with _ | xs
        · simp [hx] at h
        · rw [ih hx (by omega)]
          simpa [hx] using h

theorem expandFuel_ne_nil (n : Nat) (m : Memory) (c : Code) : expandFuel n m c ≠ some [] := by
  by_cases hl : isLiteral c = true
  · rw [expandFuel_literal _ _ hl]; simp
  · cases n with
    | zero => simp [expandFuel, hl]
    | succ n =>
      rw [expandFuel]
      simp only [hl, Bool.false_eq_true, if_false]
      rcases m.read c.toNat with _ | e
      · simp
      · rcases hx : expandFuel n m e.pfx with _ | xs <;> simp [hx]

/-- The defining equation of `expand` (R66) for a code whose prefix is smaller. -/
theorem expand_learned {m : Memory} {c : Code} {e : Entry} {bs : List Byte} (hl : isLiteral c = false)
    (hr : m.read c.toNat = some e) (hp : e.pfx.toNat < c.toNat) (hx : expand m e.pfx = some bs) :
    expand m c = some (bs ++ [e.sfx]) := by
  unfold expand at *
  obtain ⟨n, hn⟩ : ∃ n, c.toNat = n + 1 := ⟨c.toNat - 1, by omega⟩
  rw [hn] at hr hp ⊢
  rw [expandFuel]
  rw [← hn] at hr
  simp only [hl, Bool.false_eq_true, if_false, hr, expandFuel_more hx (show e.pfx.toNat ≤ n by omega)]

/-- Under the table's invariant every valid code expands (R66, R71): to at least one byte, and to at most
`c − FIRST_FREE + 2` bytes when it is a learned one. -/
theorem expand_total {b : Bool} {nf : BitVec 17} {m : Memory} (ht : TableOk b nf m) (c : Code)
    (hv : valid b nf c = true) :
    ∃ x xs, expand m c = some (x :: xs) ∧
      (isLiteral c = true → xs = []) ∧
      (isLiteral c = false → (x :: xs).length + (Config.firstFree b).toNat ≤ c.toNat + 2) := by
  have hff := firstFree_bounds b
  suffices H : ∀ n, ∀ c : Code, c.toNat ≤ n → valid b nf c = true → ∃ x xs, expand m c = some (x :: xs) ∧
      (isLiteral c = true → xs = []) ∧
      (isLiteral c = false → (x :: xs).length + (Config.firstFree b).toNat ≤ c.toNat + 2) from
    H c.toNat c (Nat.le_refl _) hv
  intro n
  induction n with
  | zero =>
    intro c hc _
    have hl : isLiteral c = true := by rw [isLiteral_iff]; omega
    exact ⟨c.low, [], expand_literal m hl, fun _ => rfl, by simp [hl]⟩
  | succ n ih =>
    intro c hc hv
    by_cases hl : isLiteral c = true
    · exact ⟨c.low, [], expand_literal m hl, fun _ => rfl, by simp [hl]⟩
    · simp only [Bool.not_eq_true] at hl
      obtain ⟨e, hr, hp, hvp⟩ := ht c hl hv
      obtain ⟨x, xs, hx, h1, h2⟩ := ih e.pfx (by omega) hvp
      refine ⟨x, xs ++ [e.sfx], by rw [expand_learned hl hr hp hx]; rfl, by simp [hl], fun _ => ?_⟩
      simp only [List.length_cons, List.length_append, List.length_nil]
      by_cases hlp : isLiteral e.pfx = true
      · have := h1 hlp
        subst this
        have hc' : ¬ c.toNat < 256 := by rw [← isLiteral_iff]; simp [hl]
        have := (valid_iff b nf c).1 hv
        simp only [List.length_nil]
        omega
      · have := h2 (by simpa using hlp)
        simp only [List.length_cons] at this
        omega

/-- An entry learned at `next_free` changes no expansion of a valid code (R33 (b)). -/
theorem expand_write {b : Bool} {nf : BitVec 17} {m : Memory} (ht : TableOk b nf m) (e : Entry) (c : Code)
    (hv : valid b nf c = true) (hf : 256 ≤ nf.toNat) : expand (m.write nf.toNat e) c = expand m c := by
  suffices H : ∀ n, ∀ c : Code, c.toNat ≤ n → valid b nf c = true → expand (m.write nf.toNat e) c = expand m c from
    H c.toNat c (Nat.le_refl _) hv
  intro n
  induction n with
  | zero =>
    intro c hc _
    have hl : isLiteral c = true := by rw [isLiteral_iff]; omega
    rw [expand_literal _ hl, expand_literal _ hl]
  | succ n ih =>
    intro c hc hv
    by_cases hl : isLiteral c = true
    · rw [expand_literal _ hl, expand_literal _ hl]
    · simp only [Bool.not_eq_true] at hl
      obtain ⟨d, hr, hp, hvp⟩ := ht c hl hv
      obtain ⟨x, xs, hx, _⟩ := expand_total ht d.pfx hvp
      have hne : c.toNat ≠ nf.toNat := by
        have := (valid_iff b nf c).1 hv
        omega
      have hx' : expand (m.write nf.toNat e) d.pfx = some (x :: xs) := by rw [ih d.pfx (by omega) hvp, hx]
      rw [expand_learned hl hr hp hx, expand_learned hl (by rw [Memory.read_write_other _ _ hne, hr]) hp hx']

/-- `LOOKUP_CHAIN` (R67): with room on the stack, the expansion goes on top of it, first byte uppermost. -/
theorem lookupLoop_eq {n : Nat} {c : Code} {s : State} {nf : BitVec 17} {x : Byte} {xs : List Byte}
    (hx : expandFuel n s.table c = some (x :: xs)) (hn : s.nextFree = some nf)
    (ht : TableOk s.blockMode nf s.table) (hv : valid s.blockMode nf c = true)
    (hd : s.stack.length + (x :: xs).length ≤ Config.stackDepth) :
    lookupLoop n c s = .ok x { s with stack := x :: xs ++ s.stack } := by
  induction n generalizing c s x xs with
  | zero =>
    by_cases hl : isLiteral c = true
    · rw [expandFuel_literal _ _ hl] at hx
      injection hx with hx
      injection hx with h1 h2
      subst h1; subst h2
      unfold lookupLoop
      rw [if_pos hl, push_ok _ _ (by simp at hd; omega)]
      rfl
    · simp [expandFuel, hl] at hx
  | succ n ih =>
    by_cases hl : isLiteral c = true
    · rw [expandFuel_literal _ _ hl] at hx
      injection hx with hx
      injection hx with h1 h2
      subst h1; subst h2
      unfold lookupLoop
      rw [if_pos hl, push_ok _ _ (by simp at hd; omega)]
      rfl
    · simp only [Bool.not_eq_true] at hl
      obtain ⟨e, hr, hp, hvp⟩ := ht c hl hv
      rw [expandFuel] at hx
      simp only [hl, Bool.false_eq_true, if_false, hr] at hx
      rcases hy : expandFuel n s.table e.pfx with _ | ys
      · simp [hy] at hx
      · simp only [hy, Option.some.injEq] at hx
        rcases ys with _ | ⟨y, ys⟩
        · exfalso
          exact expandFuel_ne_nil _ _ _ hy
        · simp only [List.cons_append, List.cons.injEq] at hx
          obtain ⟨h1, h2⟩ := hx
          subst h1; subst h2
          have hlt : s.stack.length < Config.stackDepth := by
            simp [Config.stackDepth] at hd ⊢; omega
          have hg : chainGuard c s = .ok e s := by
            unfold chainGuard
            simp only [hn, hv, if_true, hr]
            rw [if_neg (by omega), if_neg (by omega)]
          rw [lookupLoop]
          simp only [hl, Bool.false_eq_true, if_false, hg, Flow.andThen, push_ok _ _ hlt]
          rw [ih (s := { s with stack := e.sfx :: s.stack }) hy hn ht hvp (by simp at hd ⊢; omega)]
          simp

theorem lookupChain_eq {c : Code} {s : State} {nf : BitVec 17} {x : Byte} {xs : List Byte}
    (hx : expand s.table c = some (x :: xs)) (hn : s.nextFree = some nf)
    (ht : TableOk s.blockMode nf s.table) (hv : valid s.blockMode nf c = true)
    (hd : s.stack.length + (x :: xs).length ≤ Config.stackDepth) :
    lookupChain c s = .ok x { s with stack := x :: xs ++ s.stack } := lookupLoop_eq hx hn ht hv hd

/-- How a guarded walk ends in any state (R67, R68): the stack alone has changed, or ERR_CORRUPT_CHAIN is taken with
nothing emitted, or the model stops. -/
theorem lookupLoop_cases (n : Nat) (c : Code) (s : State) :
    (∃ x st, lookupLoop n c s = .ok x { s with stack := st }) ∨
    (∃ d, lookupLoop n c s = .raised (raiseCorrupt .errCorruptChain d s)) ∨
    (∃ f, lookupLoop n c s = .stop f) := by
  induction n generalizing c s with
  | zero =>
    unfold lookupLoop
    by_cases hl : isLiteral c = true
    · rw [if_pos hl]
      by_cases hd : Config.stackDepth ≤ s.stack.length
      · rw [push_full _ _ hd]; exact .inr (.inl ⟨c, rfl⟩)
      · rw [push_ok _ _ (by omega)]; exact .inl ⟨_, _, rfl⟩
    · rw [if_neg hl]; exact .inr (.inr ⟨_, rfl⟩)
  | succ n ih =>
    unfold lookupLoop
    by_cases hl : isLiteral c = true
    · rw [if_pos hl]
      by_cases hd : Config.stackDepth ≤ s.stack.length
      · rw [push_full _ _ hd]; exact .inr (.inl ⟨c, rfl⟩)
      · rw [push_ok _ _ (by omega)]; exact .inl ⟨_, _, rfl⟩
    · rw [if_neg hl]
      have hg : (∃ e, chainGuard c s = .ok e s ∧ s.stack.length < Config.stackDepth) ∨
          (chainGuard c s = .raised (raiseCorrupt .errCorruptChain c s)) ∨ (∃ f, chainGuard c s = .stop f) := by
        unfold chainGuard
        split
        · exact .inr (.inr ⟨_, rfl⟩)
        · split
          · split
            · exact .inr (.inr ⟨_, rfl⟩)
            · split
              · exact .inr (.inl rfl)
              · split
                · exact .inr (.inl rfl)
                · exact .inl ⟨_, rfl, by omega⟩
          · exact .inr (.inl rfl)
      rcases hg with ⟨e, hg, hd⟩ | hg | ⟨f, hg⟩
      · simp only [hg, Flow.andThen, push_ok _ _ hd]
        rcases ih e.pfx { s with stack := e.sfx :: s.stack } with ⟨x, st, h⟩ | ⟨d, h⟩ | ⟨f, h⟩
        · exact .inl ⟨x, st, h⟩
        · exact .inr (.inl ⟨d, h⟩)
        · exact .inr (.inr ⟨f, h⟩)
      · rw [hg]; exact .inr (.inl ⟨c, rfl⟩)
      · rw [hg]; exact .inr (.inr ⟨f, rfl⟩)

theorem lookupChain_cases (c : Code) (s : State) :
    (∃ x st, lookupChain c s = .ok x { s with stack := st }) ∨
    (∃ d, lookupChain c s = .raised (raiseCorrupt .errCorruptChain d s)) ∨
    (∃ f, lookupChain c s = .stop f) := lookupLoop_cases _ c s

/-! ## LEARN, GROW, TAIL -/

/-- `LEARN` (R69) where `next_free` holds a value and, below capacity, has storage. -/
theorem learn_eq {s : State} {nf : BitVec 17} (p : Code) (b : Byte) (hn : s.nextFree = some nf)
    (hs : nf.toNat < 2 ^ s.maxBits.toNat → hasStorage nf.toNat = true) :
    learn p b s = .ok () { s with table := learnedTable s nf p b, nextFree := some (learnedNext s nf) } := by
  simp only [learn, hn, learnedTable, learnedNext]
  by_cases h : nf.toNat < 2 ^ s.maxBits.toNat
  · simp [h, hs h]
  · simp only [h, if_false]
    have : s = { s with nextFree := some nf } := by rw [← hn]
    rw [← this]

/-- What TAIL can do (R88, R89). -/
theorem tail_cases {s : State} {nf : BitVec 17} {p : Code} (c : Code) (fb : Byte) (ho : s.oldcode = some p)
    (hn : s.nextFree = some nf) (hs : nf.toNat < 2 ^ s.maxBits.toNat → hasStorage nf.toNat = true) :
    ∃ t, (tail c fb s).toOutcome = .next t ∧ TailResult s nf p c fb t ∧ (BufferOk s → BufferOk t) := by
  simp only [tail, ho, learn_eq p fb hn hs, Flow.andThen, grow]
  by_cases hg : grows s nf = true
  · have hg' : growDue s.nBits s.maxBits (learnedNext s nf) = true := hg
    simp only [hg', if_true]
    rcases realignSkip_cases s.nBits.toNat
        { s with
          table := learnedTable s nf p fb, nextFree := some (learnedNext s nf), oldcode := some c, finchar := some fb,
          nBits := s.nBits + 1#5 } with ⟨hr, h⟩ | ⟨hr, a, t, h, hk⟩
    · simp only [h]
      have hr : s.realign = .none := hr
      refine ⟨_, rfl, ?_, fun hB => hB⟩
      constructor <;> simp [hg, hr]
    · simp only [h]
      have hr : s.realign = .group8 := hr
      have hb := hk.buffer
      have hf := hk.frame
      have hd : (s.buf = [] → s.bitOff = 0#3) →
          t.grpCnt = 0#3 ∧ Skipped (groupRest s) s t ∧ (a = .ok ↔ groupRest s ≤ bitsLeft s) := fun hz =>
        ⟨by rw [hf], ⟨(hk.cursor hz).1.enough, (hk.cursor hz).1.short⟩, (hk.cursor hz).2⟩
      have hfw : s.pos ≤ t.pos := hk.forward
      cases a
      · have hsrc : t.src = s.src := (hk.ok rfl).2
        refine ⟨t, rfl, ?_, hb⟩
        constructor
        case skipped =>
          intro _ _ hz
          obtain ⟨d1, d2, d3⟩ := hd hz
          exact ⟨d1, d2, fun _ => by rw [hf]; simp, fun h => absurd (d3.1 rfl) (by omega)⟩
        case forward => exact hfw
        case outcome => exact .inl ⟨by rw [hf], by rw [hf], by rw [hf], .inl hsrc⟩
        all_goals rw [hf] <;> simp [hg, hr]
      · have hsrc : t.src = .eos := (hk.eos rfl).1
        refine ⟨t, rfl, ?_, hb⟩
        constructor
        case skipped =>
          intro _ _ hz
          obtain ⟨d1, d2, d3⟩ := hd hz
          refine ⟨d1, d2, fun _ => by rw [hf]; simp, fun _ h => ?_⟩
          exact absurd ((hk.eos rfl).2.symm.trans h) (by simp)
        case forward => exact hfw
        case outcome => exact .inl ⟨by rw [hf], by rw [hf], by rw [hf], .inr hsrc⟩
        all_goals rw [hf] <;> simp [hg, hr]
      · refine ⟨_, rfl, ?_, hb⟩
        have he := (hk.err rfl).1
        constructor
        case skipped =>
          intro _ _ hz
          obtain ⟨d1, d2, d3⟩ := hd hz
          refine ⟨d1, ⟨d2.enough, d2.short⟩, fun h => ?_, fun _ _ => ⟨rfl, rfl, rfl⟩⟩
          rcases h with h | h
          · exact absurd (d3.2 h) (by simp)
          · exact absurd ((hk.err rfl).2.2.symm.trans h) (by simp)
        case forward => exact hfw
        all_goals simp only [raise_table, raise_nextFree, raise_oldcode, raise_finchar, raise_nBits, raise_pos,
          raise_buf, raise_bitOff, raise_grpCnt, raise_src, raise_input, raise_requests, raise_status, raise_phase,
          raise_stack, he]
        case outcome => simp [hg, hr]
        case frame =>
          generalize t.pos = q1, t.buf = q2, t.bitOff = q3, t.src = q4, t.input = q5, t.requests = q6 at hf he
          subst hf
          change q4 = .err at he
          subst he
          rfl
        all_goals rw [hf] <;> simp [hg, hr]
  · have hg' : growDue s.nBits s.maxBits (learnedNext s nf) = false := by simpa [grows] using hg
    simp only [hg', Bool.false_eq_true, if_false]
    refine ⟨_, rfl, ?_, fun hB => hB⟩
    constructor <;> simp [hg]

/-- TAIL runs exactly where `oldcode` and `next_free` hold values and LEARN's code has storage; elsewhere the model
stops (R13, R31). -/
theorem tail_stops (c : Code) (fb : Byte) (s : State) :
    (∃ f, tail c fb s = .stop f) ∨
    (∃ nf p, s.oldcode = some p ∧ s.nextFree = some nf ∧
      (nf.toNat < 2 ^ s.maxBits.toNat → hasStorage nf.toNat = true)) := by
  rcases ho : s.oldcode with _ | p
  · exact .inl ⟨.undefRead .oldcode, by simp only [tail, ho]⟩
  · rcases hn : s.nextFree with _ | nf
    · exact .inl ⟨.undefRead .nextFree, by simp [tail, ho, learn, hn, Flow.andThen]⟩
    · by_cases hs : nf.toNat < 2 ^ s.maxBits.toNat ∧ hasStorage nf.toNat = false
      · exact .inl ⟨.noStorage nf.toNat, by simp [tail, ho, learn, hn, hs, Flow.andThen]⟩
      · refine .inr ⟨nf, p, rfl, rfl, fun h => ?_⟩
        rcases hh : hasStorage nf.toNat with _ | _
        · exact absurd ⟨h, hh⟩ hs
        · rfl

end Sys2Proof.Machine
end

