-- ==== Sys2Proof/Laws/Step.lean ====
section
/-! SUPPORT. What a fetch, a meaning and a step can do, said once: every invariant of the step is derived from these. -/

namespace Sys2Proof.Machine

/-! ## Fetching -/

theorem widthOk_bounds {s : State} (h : (decodeCtx s).widthOk = true) : 9 ≤ s.nBits.toNat ∧ s.nBits.toNat ≤ 16 := by
  simp only [DecodeCtx.widthOk, Bool.and_eq_true] at h
  exact ⟨of_decide_eq_true h.1, of_decide_eq_true h.2⟩

/-- How the read of a code step ends (R78): the source's error is taken, END is selected with nothing consumed, or a
code has been cut and the cursor stands after it. -/
theorem fetchCode_cases {s : State} (hw : (decodeCtx s).widthOk = true) :
    ∃ a t taken, FillResult s.nBits.toNat { s with p0 := some s.pos } a t taken ∧
      ((a = .err ∧ fetchCode s = .raised (raise .errSourceIo none none t)) ∨
       (a = .eos ∧ fetchCode s = .ok .endStream t) ∨
       (a = .ok ∧ ∃ c, c = codeValue s.nBits.toNat s.bitOff.toNat t.buf ∧
         fetchCode s =
           match classify (decodeCtx (countCode (advance s.nBits.toNat t))) c with
           | .ok i => .ok i (countCode (advance s.nBits.toNat t))
           | .error e => .stop (.undecodable e))) := by
  have hle := (widthOk_bounds hw).2
  obtain ⟨a, t, taken, hf, hc⟩ := readCode_cases s.nBits.toNat { s with p0 := some s.pos } hle
  refine ⟨a, t, taken, hf, ?_⟩
  unfold fetchCode
  rw [if_pos hw]
  rcases hc with ⟨rfl, hc⟩ | ⟨rfl, hc⟩ | ⟨rfl, hc⟩
  · right; right
    exact ⟨rfl, _, rfl, by rw [hc]; rfl⟩
  · right; left
    exact ⟨rfl, by rw [hc]; rfl⟩
  · left
    exact ⟨rfl, by rw [hc]; rfl⟩

/-- The state a code's meaning runs on: the cursor stands after the code, `p0` before it (R78). -/
structure CodeFetched (s u : State) : Prop where
  frame : u = { s with
    p0 := some s.pos, pos := s.pos + s.nBits.toNat, buf := u.buf, bitOff := u.bitOff, grpCnt := u.grpCnt,
    input := u.input, requests := u.requests }
  buffer : BufferOk s → BufferOk u
  group : s.realign = .none → u.grpCnt = s.grpCnt

theorem codeFetched_of_fill {s t : State} {taken : List Byte}
    (hf : FillResult s.nBits.toNat { s with p0 := some s.pos } .ok t taken) (hw : s.nBits.toNat ≤ 16) :
    CodeFetched s (countCode (advance s.nBits.toNat t)) := by
  have hsrc := (hf.ok rfl).2.1
  have hav := (hf.ok rfl).1
  have hfr := hf.frame
  constructor
  · generalize t.input = q1, t.requests = q2, t.src = q3 at hfr hsrc
    subst hfr
    simp only at hsrc
    subst hsrc
    unfold countCode advance
    split <;> rfl
  · intro hB
    have h1 : BufferOk t := by
      obtain ⟨b1, b2, b3⟩ := hB
      have hoff : t.bitOff = s.bitOff := by rw [hfr]
      have hbuf : t.buf = s.buf ++ taken := by rw [hfr]
      have hpos : t.pos = s.pos := by rw [hfr]
      refine ⟨?_, ?_, by rw [hpos, hoff]; exact b3⟩
      · have := s.bitOff.isLt
        rcases hf.needed b2 with hn | hn
        · rw [hbuf, hn]; simpa using b1
        · rw [hbuf, List.length_append]
          simp only [avail_eq] at hn
          simp only [Config.bufBytes]
          omega
      · intro hb
        rw [hbuf] at hb
        have := (List.append_eq_nil_iff.1 hb).1
        rw [hoff, b2 this]
    have h2 := advance_bufferOk hav h1
    unfold countCode
    split
    · exact h2
    · exact h2
  · intro hr
    have h1 : t.realign = .none := by rw [hfr]; exact hr
    have h2 : t.grpCnt = s.grpCnt := by rw [hfr]
    simp only [countCode, advance_realign, h1]
    exact h2

/-- What a read that finds no whole code leaves (R58, R62): nothing consumed. -/
structure NothingFetched (s u : State) : Prop where
  frame : u = { s with
    p0 := some s.pos, buf := u.buf, src := u.src, input := u.input, requests := u.requests }
  buffer : BufferOk s → BufferOk u

theorem nothingFetched_of_fill {s t : State} {a : FetchAns} {taken : List Byte}
    (hf : FillResult s.nBits.toNat { s with p0 := some s.pos } a t taken) (hw : s.nBits.toNat ≤ 16) :
    NothingFetched s t := by
  have hfr := hf.frame
  constructor
  · generalize t.input = q1, t.requests = q2, t.src = q3 at hfr
    subst hfr
    rfl
  · intro hB
    obtain ⟨b1, b2, b3⟩ := hB
    have hoff : t.bitOff = s.bitOff := by rw [hfr]
    have hbuf : t.buf = s.buf ++ taken := by rw [hfr]
    have hpos : t.pos = s.pos := by rw [hfr]
    refine ⟨?_, ?_, by rw [hpos, hoff]; exact b3⟩
    · have := s.bitOff.isLt
      rcases hf.needed b2 with hn | hn
      · rw [hbuf, hn]; simpa using b1
      · rw [hbuf, List.length_append]
        simp only [avail_eq] at hn
        simp only [Config.bufBytes]
        omega
    · intro hb
      rw [hbuf] at hb
      have := (List.append_eq_nil_iff.1 hb).1
      rw [hoff, b2 this]

/-! ## Meanings -/

/-- What the meanings of LIT, REF and KWK can do (R84 to R86): emit some bytes and then TAIL; or take ERR_CORRUPT_CHAIN
with nothing emitted (R102). -/
def SteadyEffect (u v : State) (c : Code) : Prop :=
  (∃ bytes st nf p fb, u.oldcode = some p ∧ u.nextFree = some nf ∧
    (nf.toNat < 2 ^ u.maxBits.toNat → hasStorage nf.toNat = true) ∧
    TailResult { u with out := u.out ++ bytes, stack := st } nf p c fb v ∧
    (BufferOk u → BufferOk v)) ∨
  (∃ d, v = raiseCorrupt .errCorruptChain d u)

theorem tail_effect {u v : State} {c : Code} {fb : Byte} {bytes st : List Byte}
    (h : (tail c fb { u with out := u.out ++ bytes, stack := st }).toOutcome = .next v) : SteadyEffect u v c := by
  rcases tail_stops c fb { u with out := u.out ++ bytes, stack := st } with ⟨f, hs⟩ | ⟨nf, p, ho, hn, hst⟩
  · rw [hs] at h; simp [Flow.toOutcome] at h
  · obtain ⟨t, ht, hr, hb⟩ := tail_cases c fb ho hn hst
    rw [ht] at h
    injection h with h
    subst h
    exact .inl ⟨bytes, st, nf, p, fb, ho, hn, hst, hr, hb⟩

theorem execLit_effect {x : Byte} {u v : State} (h : execLit x u = .next v) : SteadyEffect u v x.toCode :=
  tail_effect (bytes := [x]) (st := u.stack) h

theorem execRef_effect {c : Code} {u v : State} (h : execRef c u = .next v) : SteadyEffect u v c := by
  unfold execRef at h
  rcases lookupChain_cases c u with ⟨x, st, hl⟩ | ⟨d, hl⟩ | ⟨f, hl⟩
  · rw [hl] at h
    simp only [Flow.andThen, emitStack_eq] at h
    exact tail_effect (u := u) h
  · rw [hl] at h
    simp only [Flow.andThen, Flow.toOutcome] at h
    injection h with h
    exact .inr ⟨d, h.symm⟩
  · rw [hl] at h
    simp [Flow.andThen, Flow.toOutcome] at h

theorem execKwk_effect {c : Code} {u v : State} (h : execKwk c u = .next v) : SteadyEffect u v c := by
  unfold execKwk at h
  split at h
  · next oc fc ho hfc =>
    by_cases hd : Config.stackDepth ≤ u.stack.length
    · rw [push_full _ _ hd] at h
      simp only [Flow.andThen, Flow.toOutcome] at h
      injection h with h
      exact .inr ⟨oc, h.symm⟩
    · rw [push_ok _ _ (by omega)] at h
      simp only [Flow.andThen] at h
      rcases lookupChain_cases oc { u with stack := fc :: u.stack } with ⟨x, st, hl⟩ | ⟨d, hl⟩ | ⟨f, hl⟩
      · rw [hl] at h
        simp only [emitStack_eq] at h
        exact tail_effect (u := u) h
      · rw [hl] at h
        simp only [Flow.toOutcome] at h
        injection h with h
        exact .inr ⟨d, h.symm⟩
      · rw [hl] at h
        simp [Flow.toOutcome] at h
  · simp at h
  · simp at h

/-- What CLR can do (R81): nothing but its own writes under `NONE`; under `GROUP8` the cursor skips, and the source's
error in the skip is taken. -/
theorem execClr_cases (u : State) :
    (u.realign = .none ∧ execClr u = .next (clearDecoder u)) ∨
    (u.realign = .group8 ∧ ∃ a t,
      SkipResult (skipLength u.grpCnt u.nBits.toNat) { clearDecoder u with grpCnt := 0#3 } a t ∧
      ((a ≠ .err ∧ execClr u = .next t) ∨ (a = .err ∧ execClr u = .next (raise .errSourceIo none none t)))) := by
  unfold execClr
  rcases realignSkip_cases u.nBits.toNat (clearDecoder u) with ⟨hr, h⟩ | ⟨hr, a, t, h, hk⟩
  · exact .inl ⟨hr, by rw [h]; rfl⟩
  · refine .inr ⟨hr, a, t, hk, ?_⟩
    rw [h]
    cases a
    · exact .inl ⟨by simp, rfl⟩
    · exact .inl ⟨by simp, rfl⟩
    · exact .inr ⟨rfl, rfl⟩

/-! ## The step -/

/-- What a code step can do (R78): the three ends of its read, and for a code the meaning of its row. -/
inductive CodeStep (s t : State) : Prop where
  | sourceError (u : State) (hu : NothingFetched s u) (hs : u.src = .err)
      (ht : t = dropWork (raise .errSourceIo none none u))
  | endStream (u v : State) (hu : NothingFetched s u) (hs : u.src = .eos)
      (ht : execEndStream u = .next v) (hv : t = dropWork v)
  | code (u v : State) (c : Code) (i : Instr) (hu : CodeFetched s u) (hf : (decodeCtx s).fits c = true)
      (hc : classify (decodeCtx s) c = .ok i) (hx : exec i u = .next v) (ht : t = dropWork v)

theorem decodeCtx_fetched {s u : State} (hu : CodeFetched s u) (c : Code) :
    classify (decodeCtx u) c = classify (decodeCtx s) c := by
  have h := hu.frame
  have h1 : u.phase = s.phase := by rw [h]
  have h2 : u.blockMode = s.blockMode := by rw [h]
  have h3 : u.nextFree = s.nextFree := by rw [h]
  simp only [classify, decodeCtx, h1, h2, h3]

theorem codeStep_cases {s t : State} (hr : s.rst = false) (hp : s.phase.readsCode = true) (h : step s = .next t) :
    CodeStep s t := by
  have h1 : endStep (runItem s) = .next t := by
    simp only [step, stepWithReset, hr, Bool.false_eq_true, if_false, stepBody] at h
    rcases hph : s.phase with _ | _ | _ | _ | _ | _ <;> simp [hph, Phase.readsCode] at hp h
    all_goals exact h
  have h2 : fetchItem s = fetchCode s := by
    unfold fetchItem
    rcases hph : s.phase with _ | _ | _ | _ | _ | _ <;> simp [hph, Phase.readsCode] at hp
    all_goals rfl
  unfold runItem at h1
  rw [h2] at h1
  by_cases hw : (decodeCtx s).widthOk = true
  · have hle := (widthOk_bounds hw).2
    obtain ⟨a, u, taken, hf, hc⟩ := fetchCode_cases hw
    rcases hc with ⟨rfl, hc⟩ | ⟨rfl, hc⟩ | ⟨rfl, c, hcv, hc⟩
    · rw [hc] at h1
      simp only [endStep] at h1
      injection h1 with h1
      exact .sourceError u (nothingFetched_of_fill hf hle) (hf.err rfl).2.2.1 h1.symm
    · rw [hc] at h1
      simp only [exec, execEndStream, endStep] at h1
      injection h1 with h1
      exact .endStream u _ (nothingFetched_of_fill hf hle) (hf.eos rfl).2.1 rfl h1.symm
    · have hu := codeFetched_of_fill hf hle
      rw [hc, decodeCtx_fetched hu] at h1
      rcases hk : classify (decodeCtx s) c with e | i
      · rw [hk] at h1; simp [endStep] at h1
      · rw [hk] at h1
        simp only at h1
        rcases hx : exec i (countCode (advance s.nBits.toNat u)) with v | f | r
        · rw [hx] at h1
          simp only [endStep] at h1
          injection h1 with h1
          exact .code _ v c i hu (decide_eq_true (hcv ▸ codeValue_lt _ _ _ hle)) hk hx h1.symm
        · rw [hx] at h1; simp [endStep] at h1
        · rw [hx] at h1; simp [endStep] at h1
  · unfold fetchCode at h1
    rw [if_neg hw] at h1
    simp [endStep] at h1

/-- In HEADER, DONE and FAULT, and under reset, what a step is. -/
theorem step_of_rst {s : State} (h : s.rst = true) : step s = .next (hwReset s) := by
  simp [step, stepWithReset, h]

theorem step_of_terminal {s : State} (h : s.rst = false) (hp : s.phase = .done ∨ s.phase = .fault) :
    step s = .next s := by
  rcases hp with hp | hp <;> simp [step, stepWithReset, h, stepBody, hp]

theorem step_of_header {s : State} (h : s.rst = false) (hp : s.phase = .header) : step s = hdrStep s := by
  simp [step, stepWithReset, h, stepBody, hp]

/-! ## Row by row -/

/-- The end of a code's meaning, row by row (R79 to R87). -/
inductive CodeRow (s u v : State) : Prop where
  | literal (x : Byte) (hp : s.phase = .awaitFirst ∨ s.phase = .cleared) (hv : v = startLiteral x u)
  | corrupt (st : Status) (c : Code) (hs : st.corrupt) (hc : st ≠ .errCorruptChain) (hv : v = raiseCorrupt st c u)
  | clear (hb : s.blockMode = true) (hp : s.phase = .steady ∨ s.phase = .cleared) (hv : execClr u = .next v)
  | steady (c : Code) (hp : s.phase = .steady) (hv : SteadyEffect u v c)

theorem classifySteady_ok {b : Bool} {nf : Option (BitVec 17)} {c : Code} {i : Instr}
    (h : classifySteady b nf c = .ok i) :
    (i = .clr ∧ isClear b c = true) ∨ (isClear b c = false ∧ c.toNat < 256 ∧ i = .lit c.low) ∨
    (isClear b c = false ∧ 256 ≤ c.toNat ∧ ∃ n, nf = some n ∧
      ((c.toNat < n.toNat ∧ i = .ref c) ∨ (c.toNat = n.toNat ∧ i = .kwk c) ∨ (n.toNat < c.toNat ∧ i = .badRange c))) := by
  unfold classifySteady at h
  split at h
  · next hc => injection h with h; exact .inl ⟨h.symm, hc⟩
  · next hc =>
    simp only [Bool.not_eq_true] at hc
    right
    split at h
    · next hl => injection h with h; exact .inl ⟨hc, hl, h.symm⟩
    · next hl =>
      right
      refine ⟨hc, by simp only [Config.nLiterals] at hl; omega, ?_⟩
      split at h
      · cases h
      · next n =>
        refine ⟨n, rfl, ?_⟩
        split at h
        · next h1 => injection h with h; exact .inl ⟨h1, h.symm⟩
        · split at h
          · next h1 => injection h with h; exact .inr (.inl ⟨h1, h.symm⟩)
          · injection h with h; exact .inr (.inr ⟨by omega, h.symm⟩)

theorem codeRow_of_exec {s u v : State} {c : Code} {i : Instr} (hc : classify (decodeCtx s) c = .ok i)
    (hx : exec i u = .next v) : CodeRow s u v := by
  unfold classify at hc
  have hph : (decodeCtx s).phase = s.phase := rfl
  split at hc
  · next h =>
    rw [hph] at h
    unfold classifyFirst at hc
    split at hc <;> injection hc with hc <;> subst hc <;> injection hx with hx
    · exact .literal _ (.inl h) hx.symm
    · exact .corrupt .errCorruptFirst c (.inl rfl) (by simp) hx.symm
  · next h =>
    rw [hph] at h
    rcases classifySteady_ok hc with ⟨rfl, hb⟩ | ⟨_, _, rfl⟩ | ⟨_, _, n, _, ⟨_, rfl⟩ | ⟨_, rfl⟩ | ⟨_, rfl⟩⟩
    · refine .clear ?_ (.inl h) hx
      simp only [isClear, Bool.and_eq_true] at hb
      exact hb.1
    · exact .steady _ h (execLit_effect hx)
    · exact .steady _ h (execRef_effect hx)
    · exact .steady _ h (execKwk_effect hx)
    · injection hx with hx
      exact .corrupt .errCorruptRange c (.inr (.inl rfl)) (by simp) hx.symm
  · next h =>
    rw [hph] at h
    unfold classifyCleared at hc
    split at hc
    · next hb =>
      injection hc with hc; subst hc
      refine .clear ?_ (.inr h) hx
      simp only [isClear, Bool.and_eq_true] at hb
      exact hb.1
    · split at hc
      · injection hc with hc; subst hc; injection hx with hx
        exact .literal _ (.inr h) hx.symm
      · split at hc
        · cases hc
        · injection hc with hc; subst hc; injection hx with hx
          exact .corrupt .errCorruptPclr c (.inr (.inr (.inl rfl))) (by simp) hx.symm
  all_goals cases hc

/-- Every step is one of four: reset, the header, a terminal phase, a code (R74, R92, R113). -/
theorem step_phase_cases {s t : State} (h : step s = .next t) :
    (s.rst = true ∧ t = hwReset s) ∨ (s.rst = false ∧ ((s.phase = .header ∧ hdrStep s = .next t) ∨
     ((s.phase = .done ∨ s.phase = .fault) ∧ t = s) ∨ (s.phase.readsCode = true ∧ CodeStep s t))) := by
  rcases hr : s.rst with _ | _
  · right; refine ⟨rfl, ?_⟩
    rcases hp : s.phase with _ | _ | _ | _ | _ | _
    · left; rw [step_of_header hr hp] at h; exact ⟨rfl, h⟩
    · right; right; exact ⟨rfl, codeStep_cases hr (by rw [hp]; rfl) h⟩
    · right; right; exact ⟨rfl, codeStep_cases hr (by rw [hp]; rfl) h⟩
    · right; right; exact ⟨rfl, codeStep_cases hr (by rw [hp]; rfl) h⟩
    · right; left; rw [step_of_terminal hr (.inl hp)] at h; injection h with h; exact ⟨.inl rfl, h.symm⟩
    · right; left; rw [step_of_terminal hr (.inr hp)] at h; injection h with h; exact ⟨.inr rfl, h.symm⟩
  · left; rw [step_of_rst hr] at h; injection h with h; exact ⟨rfl, h.symm⟩

/-! ## The code step, register by register -/

/-- `s` with what the BitReader's operations may have changed taken from `t`, and no working values. -/
def reread (s t : State) : State :=
  { s with
    pos := t.pos, buf := t.buf, bitOff := t.bitOff, grpCnt := t.grpCnt, src := t.src, input := t.input,
    requests := t.requests, h0 := none, h1 := none, p0 := none }

/-- Every way a code step can end, with every register that the BitReader does not own (R78 to R90, R100). -/
inductive CodeEnd (s t : State) : Prop where
  /-- SourceIOError at the read (R102). -/
  | sourceError (hf : t = { reread s t with status := .errSourceIo, phase := .fault, stack := [] })
      (hs : t.src = .err) (hp : t.pos = s.pos)
  /-- END (R90). -/
  | endStream (hf : t = { reread s t with warnTrunc := t.warnTrunc, status := t.status, phase := .done })
      (hw : t.warnTrunc = true ∧ t.status = .doneTruncated ∨ t.warnTrunc = false ∧ t.status = .doneOk)
      (hp : t.pos = s.pos)
  /-- FIRST, PLIT (R79, R82). -/
  | literal (x : Byte) (hph : s.phase = .awaitFirst ∨ s.phase = .cleared)
      (hf : t = { reread s t with
        out := s.out ++ [x], oldcode := some x.toCode, finchar := some x, phase := .steady })
      (hs : t.src = s.src) (hp : t.pos = s.pos + s.nBits.toNat)
  /-- CorruptStreamError (R80, R83, R87, R68). -/
  | corrupt (st : Status) (c : Code) (hst : st.corrupt) (hc : st = .errCorruptChain → s.phase = .steady)
      (hf : t = { reread s t with
        status := st, faultCode := some c, faultPos := some s.pos, stack := [], phase := .fault })
      (hs : t.src = s.src) (hp : t.pos = s.pos + s.nBits.toNat)
  /-- CLR (R81). -/
  | clear (hb : s.blockMode = true) (hph : s.phase = .steady ∨ s.phase = .cleared)
      (hf : t = { reread s t with
        nextFree := some 257#17, nBits := 9#5, oldcode := none, finchar := none, phase := t.phase, status := t.status,
        stack := t.stack })
      (ho : (t.phase = .cleared ∧ t.status = s.status ∧ t.stack = s.stack) ∨
        (s.realign = .group8 ∧ t.src = .err ∧ t.phase = .fault ∧ t.status = .errSourceIo ∧ t.stack = []))
      (hp : s.pos + s.nBits.toNat ≤ t.pos) (hn : s.realign = .none → t.pos = s.pos + s.nBits.toNat ∧ t.src = s.src)
      (hs : t.src = .err → s.src = .err ∨ t.phase = .fault)
  /-- LIT, REF, KWK (R84 to R86). -/
  | steady (bytes : List Byte) (nf : BitVec 17) (p c : Code) (fb : Byte) (hph : s.phase = .steady)
      (ho : s.oldcode = some p) (hn : s.nextFree = some nf)
      (hst : nf.toNat < 2 ^ s.maxBits.toNat → hasStorage nf.toNat = true)
      (hf : t = { reread s t with
        out := s.out ++ bytes, table := learnedTable s nf p fb, nextFree := some (learnedNext s nf),
        oldcode := some c, finchar := some fb, nBits := if grows s nf = true then s.nBits + 1#5 else s.nBits,
        phase := t.phase, status := t.status, stack := t.stack })
      (he : (t.phase = s.phase ∧ t.status = s.status) ∨
        (s.realign = .group8 ∧ t.src = .err ∧ t.phase = .fault ∧ t.status = .errSourceIo ∧ t.stack = []))
      (hp : s.pos + s.nBits.toNat ≤ t.pos) (hr : s.realign = .none → t.pos = s.pos + s.nBits.toNat ∧ t.src = s.src)
      (hs : t.src = .err → s.src = .err ∨ t.phase = .fault)

theorem codeEnd_of_codeStep {s t : State} (h : CodeStep s t) : CodeEnd s t := by
  cases h with
  | sourceError u hu hs ht =>
    have hf := hu.frame
    generalize u.buf = q1, u.src = q2, u.input = q3, u.requests = q4 at hf hs
    subst hf; subst ht
    exact .sourceError rfl hs rfl
  | endStream u v hu hs ht hv =>
    have hf := hu.frame
    generalize u.buf = q1, u.src = q2, u.input = q3, u.requests = q4 at hf hs
    injection ht with ht
    subst ht; subst hf; subst hv
    refine .endStream rfl ?_ rfl
    simp only [dropWork_warnTrunc, dropWork_status]
    split <;> simp_all
  | code u v c i hu hfit hc hx ht =>
    have hf := hu.frame
    generalize u.buf = q1, u.bitOff = q2, u.grpCnt = q3, u.input = q4, u.requests = q5 at hf
    have hrow := codeRow_of_exec hc hx
    subst ht
    clear hx hu
    cases hrow with
    | literal x hp hv =>
      subst hf; subst hv
      exact .literal x hp rfl rfl rfl
    | corrupt st d hs hd hv =>
      subst hf; subst hv
      exact .corrupt st d hs (fun h => absurd h hd) rfl rfl rfl
    | clear hb hp hv =>
      rcases execClr_cases u with ⟨hr, he⟩ | ⟨hr, a, w, hk, ha⟩
      · rw [he] at hv; injection hv with hv
        subst hf; subst hv
        exact .clear hb hp rfl (.inl ⟨rfl, rfl, rfl⟩) (Nat.le_refl _) (fun _ => ⟨rfl, rfl⟩) (fun h => .inl h)
      · have hk1 := hk.frame
        have hk2 := hk.forward
        have hk3 := hk.err
        have hk4 := hk.eos
        have hk5 := hk.ok
        generalize w.pos = r1, w.buf = r2, w.bitOff = r3, w.src = r4, w.input = r5, w.requests = r6 at hk1 hk2 hk3 hk4 hk5
        rcases ha with ⟨ha, he⟩ | ⟨ha, he⟩
        · rw [he] at hv; injection hv with hv
          subst hf; subst hv; subst hk1
          refine .clear hb hp rfl (.inl ⟨rfl, rfl, rfl⟩) hk2 (fun h => absurd (h.symm.trans hr) (by simp)) ?_
          intro h
          cases a with
          | ok => exact .inl ((hk5 rfl).2.symm.trans h)
          | eos => exact absurd ((hk4 rfl).1.symm.trans h) (by simp)
          | err => exact absurd rfl ha
        · rw [he] at hv; injection hv with hv
          subst hf; subst hv; subst hk1
          exact .clear hb hp rfl (.inr ⟨hr, (hk3 ha).1, rfl, rfl, rfl⟩) hk2 (fun h => absurd (h.symm.trans hr) (by simp))
            (fun _ => .inr rfl)
    | steady d hp hv =>
      rcases hv with ⟨bytes, st, nf, p, fb, ho, hn, hst, hT, _⟩ | ⟨d, hv⟩
      · have h1 := hT.frame
        have h2 := hT.table
        have h3 := hT.nextFree
        have h4 := hT.oldcode
        have h5 := hT.finchar
        have h6 := hT.nBits
        have h7 := hT.forward
        have h8 := hT.still
        have h9 := hT.outcome
        clear hT
        generalize v.table = r1, v.nextFree = r2, v.oldcode = r3, v.finchar = r4, v.nBits = r5, v.pos = r6, v.buf = r7,
          v.bitOff = r8, v.grpCnt = r9, v.src = r10, v.input = r11, v.requests = r12, v.status = r13, v.phase = r14,
          v.stack = r15 at h1 h2 h3 h4 h5 h6 h7 h8 h9
        subst hf
        subst h1; subst h2; subst h3; subst h4; subst h5; subst h6
        refine .steady bytes nf p d fb hp ho hn hst rfl ?_ h7 (fun h => ?_) ?_
        · rcases h9 with ⟨a1, a2, _⟩ | ⟨a1, a2, a3, a4, a5, a6⟩
          · exact .inl ⟨a2, a1⟩
          · exact .inr ⟨a1, a3, a5, a4, a6⟩
        · have := h8 (.inl h)
          exact ⟨this.1, this.2.2.2.2.1⟩
        · intro h
          rcases h9 with ⟨a1, a2, a3, a4⟩ | ⟨a1, a2, a3, a4, a5, a6⟩
          · rcases a4 with a4 | a4
            · exact .inl (a4 ▸ h)
            · rw [a4] at h; cases h
          · exact .inr a5
      · subst hf; subst hv
        exact .corrupt .errCorruptChain d (.inr (.inr (.inr rfl))) (fun _ => hp) rfl rfl rfl

/-- Under `REALIGN = NONE` a code step leaves `grp_cnt` (R24). -/
theorem codeStep_group {s t : State} (h : CodeStep s t) (hr : s.realign = .none) : t.grpCnt = s.grpCnt := by
  cases h with
  | sourceError u hu hs ht => rw [ht, hu.frame]; rfl
  | endStream u v hu hs ht hv =>
    injection ht with ht
    rw [hv, ← ht, hu.frame]; rfl
  | code u v c i hu hf hc hx ht =>
    have hg := hu.group hr
    have hur : u.realign = .none := by rw [hu.frame]; exact hr
    rw [ht, dropWork_grpCnt, ← hg]
    cases codeRow_of_exec hc hx with
    | literal x hp hv => rw [hv]; rfl
    | corrupt st c hs hc hv => rw [hv]; rfl
    | clear hb hp hv =>
      rcases execClr_cases u with ⟨_, he⟩ | ⟨h8, _⟩
      · rw [he] at hv; injection hv with hv; rw [← hv]; rfl
      · rw [hur] at h8; cases h8
    | steady c hp hv =>
      rcases hv with ⟨bytes, st, nf, p, fb, _, _, _, hT, _⟩ | ⟨d, hv⟩
      · exact (hT.still (.inl hur)).2.2.2.1
      · rw [hv]; rfl

end Sys2Proof.Machine
end

