-- ==== Sys2Proof/Tests/Slice0.lean ====
section
/-! SUPPORT. Tests. The expected values of the step, decode and operation tests are those of spec/95_test_vectors.md (the
vector is named in each docstring) or are worked out by hand from the rule named. The last part shows, for each statement
that has hypotheses, a state and operands that meet them, at the boundaries of its clauses. -/

namespace Sys2Proof.Tests
open Sys2Proof Sys2Proof.Machine

/-! ## Helpers -/

/-- The outcome is a next state of which `p` holds. -/
def nextIs (o : Host.Outcome State Fault Refusal) (p : State → Bool) : Bool :=
  match o with
  | .next t => p t
  | .fault _ => false
  | .refused _ => false

/-- What the decoder reads, if it reads anything. -/
def reads (ctx : DecodeCtx) (bytes : List Byte) : Option Instr :=
  match decode ctx bytes with
  | .ok i => some i
  | .error _ => none

/-- The reset state with these bytes still to come. -/
def withInput (bytes : List Byte) : State := { State.reset with input := bytes }

/-- After the header `1F 9D 90` (D-HDR-1). -/
def afterHeader (bytes : List Byte) : State :=
  { withInput bytes with
    phase := .awaitFirst, maxBits := 16#5, blockMode := true, nextFree := some 257#17, requests := 3 }

/-- After the code 65 of `1F 9D 90 41 ..` (S1): the second byte is buffered and one of its bits consumed. -/
def afterA (second : Byte) (bytes : List Byte) : State :=
  { afterHeader bytes with
    phase := .steady, oldcode := some 65#16, finchar := some 0x41#8, pos := 9, buf := [second], bitOff := 1#3,
    requests := 5, out := [0x41#8] }

/-- After the codes 65, 66 (D-LIT-1, D-REF-1, D-RANGE-1): the third byte is buffered, two of its bits consumed. -/
def afterAB (third : Byte) (bytes : List Byte) : State :=
  { afterHeader bytes with
    phase := .steady, oldcode := some 66#16, finchar := some 0x42#8, nextFree := some 258#17,
    table := [(257, { pfx := 65#16, sfx := 0x42#8 })], pos := 18, buf := [third], bitOff := 2#3, requests := 6,
    out := [0x41#8, 0x42#8] }

/-- After the codes 65, 256 (D-CLR-1, D-CLR-4). -/
def afterClear (third : Byte) (bytes : List Byte) : State :=
  { afterHeader bytes with
    phase := .cleared, pos := 18, buf := [third], bitOff := 2#3, requests := 6, out := [0x41#8] }

/-! ## Well-formedness: an ill-formed term for each check, refused -/

theorem test_wf_badFirst_literal : Instr.WellFormed (.badFirst 255#16) = false := by decide
theorem test_wf_badFirst_first : Instr.WellFormed (.badFirst 256#16) = true := by decide
theorem test_wf_badPclr_clear : Instr.WellFormed (.badPclr 256#16) = false := by decide
theorem test_wf_badPclr_first : Instr.WellFormed (.badPclr 257#16) = true := by decide
theorem test_wf_ref_literal : Instr.WellFormed (.ref 10#16) = false := by decide
theorem test_wf_kwk_literal : Instr.WellFormed (.kwk 3#16) = false := by decide
theorem test_wf_badRange_literal : Instr.WellFormed (.badRange 255#16) = false := by decide

/-- The contexts of the admission tests: the one after two codes, and the same right after a CLEAR. -/
def steadyCtx : DecodeCtx := decodeCtx (afterAB 0x04#8 [])
def clearedCtx : DecodeCtx := decodeCtx (afterClear 0x06#8 [])
def firstCtx : DecodeCtx := decodeCtx (afterHeader [])

theorem test_admits_width : ({ steadyCtx with nBits := 8#5 } : DecodeCtx).widthOk = false := by decide
theorem test_admits_code_too_wide : steadyCtx.admits (.badRange 512#16) = false := by decide
theorem test_admits_ref_unlearned : steadyCtx.admits (.ref 258#16) = false := by decide
theorem test_admits_ref_clear : steadyCtx.admits (.ref 256#16) = false := by decide
theorem test_admits_kwk_learned : steadyCtx.admits (.kwk 257#16) = false := by decide
theorem test_admits_badRange_next : steadyCtx.admits (.badRange 258#16) = false := by decide
theorem test_admits_lit_phase : clearedCtx.admits (.lit 0x41#8) = false := by decide
theorem test_admits_first_phase : steadyCtx.admits (.first 0x41#8) = false := by decide
theorem test_admits_clr_no_block : ({ steadyCtx with blockMode := false } : DecodeCtx).admits .clr = false := by decide
theorem test_admits_header_order : firstCtx.admits (.hdrM0 0x1F#8) = false := by decide

/-! ## Decoding: words written out bit by bit from R47 to R51 -/

/-- R48: bit 7, bits 6..5, bits 4..0. -/
theorem test_decode_control : decodeTableWord 8 0b11101100 = some (.hdrCtl true 3#2 12#5) := by decide
/-- R47. -/
theorem test_decode_magic0 : decodeTableWord 8 0b00011111 = some (.hdrM0 0x1F#8) := by decide
/-- R47. -/
theorem test_decode_magic1 : decodeTableWord 8 0b10011101 = some (.hdrM1 0x9D#8) := by decide
/-- R49, R51: 9 bits `001000001` at offset 0, then 7 bits of the next code. -/
theorem test_decode_first : reads firstCtx [0b01000001#8, 0b10000100#8] = some (.first 0b01000001#8) := by decide
/-- R51, R101: 256 as the very first code, `100000000`. -/
theorem test_decode_badFirst : reads firstCtx [0b00000000#8, 0b00000001#8] = some (.badFirst 256#16) := by decide
/-- R51: `100000000` at offset 2 is CLR, in CLEARED too. -/
theorem test_decode_clr : reads clearedCtx [0b00000011#8, 0b00000100#8] = some .clr := by decide
/-- R51: `001000011` at offset 2. -/
theorem test_decode_plit : reads clearedCtx [0b00001100#8, 0b00000001#8] = some (.plit 0b01000011#8) := by decide
/-- R51: `100000001` at offset 2. -/
theorem test_decode_badPclr : reads clearedCtx [0b00000110#8, 0b00000100#8] = some (.badPclr 257#16) := by decide
/-- R51: `001000010` at offset 2. -/
theorem test_decode_lit : reads steadyCtx [0b00001011#8, 0b00000001#8] = some (.lit 0b01000010#8) := by decide
/-- R51: `100000001`, `100000010` and `100000011` at offset 2, with `next_free = 258`. -/
theorem test_decode_ref : reads steadyCtx [0b00000100#8, 0b00000100#8] = some (.ref 257#16) := by decide
theorem test_decode_kwk : reads steadyCtx [0b00001000#8, 0b00000100#8] = some (.kwk 258#16) := by decide
theorem test_decode_badRange : reads steadyCtx [0b00001100#8, 0b00000100#8] = some (.badRange 259#16) := by decide
/-- R51, R62: 14 bits from offset 2 hold a code of 9; 6 bits do not. -/
theorem test_decode_end : reads steadyCtx [0b00000100#8] = some .endStream := by decide
/-- D-RD-11: 16 bits at offset 7 of `B5 6A D3`. -/
theorem test_codeValue_widest : codeValue 16 7 [0xB5#8, 0x6A#8, 0xD3#8] = 42709#16 := by decide
/-- D-RD-8. -/
theorem test_codeValue_12 : codeValue 12 5 [0xB5#8, 0x6A#8, 0xD3#8] = 2901#16 := by decide
/-- R49: D-RD-8's code, written back by the encoder. -/
theorem test_packCode : packCode 12 5 2901#16 = [0xA0#8, 0x6A#8, 0x01#8] := by decide

/-! ## One step per instruction -/

/-- D-HDR-18: bits 6..5 of the control byte are ignored. -/
theorem test_header_accepted :
    nextIs (step (withInput [0x1F#8, 0x9D#8, 0xF0#8, 0x41#8]))
      (fun t => decide (t.phase = .awaitFirst ∧ t.maxBits = 16#5 ∧ t.blockMode = true ∧ t.nextFree = some 257#17 ∧
        t.input = [0x41#8] ∧ t.requests = 3)) = true := by decide +kernel
/-- D-HDR-11: the magic is judged before `max_bits`. -/
theorem test_header_magic_first :
    nextIs (step (withInput [0x00#8, 0x00#8, 0xFF#8]))
      (fun t => decide (t.status = .errFormatMagic ∧ t.maxBits = 0#5 ∧ t.requests = 3)) = true := by decide +kernel
/-- D-HDR-15: a short header wins over a wrong magic. -/
theorem test_header_short :
    nextIs (step (withInput [0x1F#8, 0x8B#8]))
      (fun t => decide (t.status = .errFormatShort ∧ t.phase = .fault ∧ t.requests = 3)) = true := by decide +kernel
/-- D-FIRST-1: the first code 65. -/
theorem test_first :
    nextIs (step (afterHeader [0x41#8, 0x00#8]))
      (fun t => decide (t.out = [0x41#8] ∧ t.oldcode = some 65#16 ∧ t.finchar = some 0x41#8 ∧ t.table = [] ∧
        t.phase = .steady ∧ t.pos = 9 ∧ t.buf = [0x00#8] ∧ t.bitOff = 1#3)) = true := by decide +kernel
/-- D-BADFIRST-1. -/
theorem test_badFirst :
    nextIs (step (afterHeader [0x2C#8, 0x01#8]))
      (fun t => decide (t.status = .errCorruptFirst ∧ t.faultCode = some 300#16 ∧ t.faultPos = some 0 ∧ t.pos = 9 ∧
        t.out = [])) = true := by decide +kernel
/-- D-BADFIRST-2: CLEAR as the very first code. -/
theorem test_badFirst_clear :
    nextIs (step (afterHeader [0x00#8, 0x01#8]))
      (fun t => decide (t.status = .errCorruptFirst ∧ t.faultCode = some 256#16)) = true := by decide +kernel
/-- D-LIT-1, second code. -/
theorem test_lit :
    nextIs (step (afterA 0x84#8 [0x00#8]))
      (fun t => decide (t.out = [0x41#8, 0x42#8] ∧ t.table = [(257, { pfx := 65#16, sfx := 0x42#8 })] ∧
        t.nextFree = some 258#17 ∧ t.oldcode = some 66#16 ∧ t.nBits = 9#5 ∧ t.pos = 18)) = true := by decide +kernel
/-- D-GROW-2: `next_free` becomes 512, above 511: the width grows. -/
theorem test_lit_grows :
    nextIs (step { afterA 0x84#8 [0x00#8] with nextFree := some 511#17 })
      (fun t => decide (t.nextFree = some 512#17 ∧ t.nBits = 10#5)) = true := by decide +kernel
/-- D-REF-1, third code. -/
theorem test_ref :
    nextIs (step (afterAB 0x04#8 [0x04#8]))
      (fun t => decide (t.out = [0x41#8, 0x42#8, 0x41#8, 0x42#8] ∧
        t.table.read 258 = some { pfx := 66#16, sfx := 0x41#8 } ∧ t.nextFree = some 259#17 ∧
        t.oldcode = some 257#16 ∧ t.finchar = some 0x41#8 ∧ t.stack = [])) = true := by decide +kernel
/-- The hand-made table of 95_test_vectors section 2.6: `prefix[258] = 258` and REF 258. -/
theorem test_ref_chain :
    nextIs (step { afterAB 0x08#8 [0x04#8] with
        nextFree := some 259#17, table := [(258, { pfx := 258#16, sfx := 0#8 })] })
      (fun t => decide (t.status = .errCorruptChain ∧ t.faultCode = some 258#16 ∧ t.phase = .fault)) = true := by decide +kernel
/-- D-KWK-1, second code. -/
theorem test_kwk :
    nextIs (step (afterA 0x02#8 [0x02#8]))
      (fun t => decide (t.out = [0x41#8, 0x41#8, 0x41#8] ∧ t.table = [(257, { pfx := 65#16, sfx := 0x41#8 })] ∧
        t.nextFree = some 258#17 ∧ t.oldcode = some 257#16 ∧ t.finchar = some 0x41#8)) = true := by decide +kernel
/-- D-KWK-3: without block mode the code is 256. -/
theorem test_kwk_no_block :
    nextIs (step { afterA 0x00#8 [0x02#8] with blockMode := false, nextFree := some 256#17 })
      (fun t => decide (t.out = [0x41#8, 0x41#8, 0x41#8] ∧ t.table = [(256, { pfx := 65#16, sfx := 0x41#8 })])) =
      true := by decide +kernel
/-- D-CLR-1, second code. -/
theorem test_clr :
    nextIs (step (afterA 0x00#8 [0x02#8]))
      (fun t => decide (t.phase = .cleared ∧ t.nextFree = some 257#17 ∧ t.nBits = 9#5 ∧ t.oldcode = none ∧
        t.finchar = none ∧ t.pos = 18 ∧ t.out = [0x41#8])) = true := by decide +kernel
/-- D-G8-3, third code: under GROUP8 the skip meets `Err`. -/
theorem test_clr_group8_err :
    nextIs (step { afterAB 0x00#8 [0x04#8, 0x00#8] with realign := .group8, grpCnt := 2#3, term := .err })
      (fun t => decide (t.status = .errSourceIo ∧ t.pos = 40 ∧ t.buf = [] ∧ t.requests = 9 ∧
        t.nextFree = some 257#17)) = true := by decide +kernel
/-- D-CLR-3, fourth code, at the place of the third: a literal right after a CLEAR (66 at offset 2). -/
theorem test_plit :
    nextIs (step (afterClear 0x08#8 [0x01#8]))
      (fun t => decide (t.out = [0x41#8, 0x42#8] ∧ t.oldcode = some 66#16 ∧ t.finchar = some 0x42#8 ∧ t.table = [] ∧
        t.nextFree = some 257#17 ∧ t.phase = .steady)) = true := by decide +kernel
/-- D-CLR-4, third code. -/
theorem test_badPclr :
    nextIs (step (afterClear 0x06#8 [0x04#8]))
      (fun t => decide (t.status = .errCorruptPclr ∧ t.faultCode = some 257#16 ∧ t.faultPos = some 18 ∧
        t.pos = 27 ∧ t.oldcode = none)) = true := by decide +kernel
/-- D-RANGE-1, third code. -/
theorem test_badRange :
    nextIs (step (afterAB 0x0C#8 [0x04#8]))
      (fun t => decide (t.status = .errCorruptRange ∧ t.faultCode = some 259#16 ∧ t.faultPos = some 18 ∧
        t.out = [0x41#8, 0x42#8] ∧ t.oldcode = some 66#16)) = true := by decide +kernel
/-- D-END-1: zero padding. -/
theorem test_end_ok :
    nextIs (step (afterA 0x00#8 []))
      (fun t => decide (t.status = .doneOk ∧ t.warnTrunc = false ∧ t.phase = .done ∧ t.pos = 9 ∧
        t.buf = [0x00#8] ∧ t.src = .eos ∧ t.requests = 6)) = true := by decide +kernel
/-- D-END-3: a stray set bit. -/
theorem test_end_truncated :
    nextIs (step (afterA 0x02#8 []))
      (fun t => decide (t.status = .doneTruncated ∧ t.warnTrunc = true ∧ t.phase = .done)) = true := by decide +kernel
/-- D-IO-1: the source's error before the second code is complete. -/
theorem test_source_error :
    nextIs (step { afterA 0x84#8 [] with term := .err })
      (fun t => decide (t.status = .errSourceIo ∧ t.src = .err ∧ t.pos = 9 ∧ t.buf = [0x84#8] ∧ t.requests = 6 ∧
        t.faultCode = none)) = true := by decide +kernel

/-! ## Operations -/

/-- D-EC-5, D-EC-6, D-EC-10. -/
theorem test_eosCheck :
    eosCheck { State.reset with buf := [0x01#8], bitOff := 1#3 } = false ∧
    eosCheck { State.reset with buf := [0x80#8], bitOff := 7#3 } = true ∧
    eosCheck { State.reset with buf := [0x00#8, 0x00#8], bitOff := 7#3 } = true := by decide +kernel
/-- D-GROW-1 to D-GROW-3, D-GROW-7. -/
theorem test_growDue :
    growDue 9#5 16#5 511#17 = false ∧ growDue 9#5 16#5 512#17 = true ∧ growDue 9#5 9#5 512#17 = false ∧
    growDue 16#5 16#5 65536#17 = false := by decide +kernel
/-- The table of REALIGN_SKIP in 95_test_vectors section 2.2. -/
theorem test_skipLength :
    skipLength 0#3 9 = 0 ∧ skipLength 1#3 9 = 63 ∧ skipLength 7#3 9 = 9 ∧ skipLength 1#3 16 = 112 := by decide +kernel
/-- D-CT-7. -/
theorem test_expand :
    expand [(257, { pfx := 65#16, sfx := 0x42#8 }), (258, { pfx := 66#16, sfx := 0x41#8 }),
      (259, { pfx := 257#16, sfx := 0x41#8 })] 259#16 = some [0x41#8, 0x42#8, 0x41#8] := by decide +kernel
/-- D-CT-4. -/
theorem test_valid :
    valid true 260#17 256#16 = false ∧ valid true 260#17 260#16 = false ∧ valid true 260#17 259#16 = true := by decide +kernel
/-- R33: `next_free` reaches 65536 (D-CT-12), where nothing is left to learn. -/
theorem test_learn_last :
    (match learn 0#16 0#8 { afterHeader [] with nextFree := some 65535#17 } with
      | .ok _ t => decide (t.nextFree = some 65536#17 ∧ t.table = [(65535, { pfx := 0#16, sfx := 0#8 })])
      | .raised _ => false
      | .stop _ => false) = true := by decide +kernel
/-- The memory keeps its codes rising whatever the order of writing (R31). -/
theorem test_memory_order :
    Memory.write [(257, { pfx := 1#16, sfx := 1#8 }), (259, { pfx := 3#16, sfx := 3#8 })] 258 { pfx := 2#16, sfx := 2#8 }
      = [(257, { pfx := 1#16, sfx := 1#8 }), (258, { pfx := 2#16, sfx := 2#8 }), (259, { pfx := 3#16, sfx := 3#8 })] := by decide +kernel
/-- R35, D10: three answers at once. -/
theorem test_pins : SrcAnswer.ofPins true true true 0x41#8 = some .err := by decide +kernel

/-! ## Witnesses: the hypotheses of the statements are met

Each is named after its statement; where a statement has clauses, there is one for each, at a boundary of its range. -/

/-- The state of D-REF-1 before its third code: 257 is learned, REF 257 is next. -/
abbrev atRef : State := afterAB 0x04#8 [0x04#8]
/-- The state of D-KWK-1 before its second code. -/
abbrev atKwk : State := afterA 0x02#8 [0x02#8]

theorem tableOk_atRef : TableOk true 258#17 [(257, { pfx := 65#16, sfx := 0x42#8 })] := by
  intro c hl hv
  rw [valid_iff] at hv
  have h1 : ¬ c.toNat < 256 := by rw [← isLiteral_iff, hl]; decide
  have h2 : (Config.firstFree true).toNat = 257 := rfl
  have h3 : (258#17 : BitVec 17).toNat = 258 := rfl
  have h4 : c.toNat = 257 := by omega
  refine ⟨{ pfx := 65#16, sfx := 0x42#8 }, ?_, ?_, ?_⟩
  · rw [h4]; rfl
  · rw [h4]; decide
  · rw [valid_iff]; left; decide

/-- Nothing learned yet: no code has an entry. -/
theorem tableOk_atKwk (m : Memory) : TableOk true 257#17 m := by
  intro c hl hv
  rw [valid_iff] at hv
  have h1 : ¬ c.toNat < 256 := by rw [← isLiteral_iff, hl]; decide
  have h2 : (Config.firstFree true).toNat = 257 := rfl
  have h3 : (257#17 : BitVec 17).toNat = 257 := rfl
  omega

theorem widthOk_atRef : WidthOk atRef 258#17 := by
  refine ⟨?_, ?_, ?_, ?_, ?_, ?_, ?_⟩ <;> decide

theorem widthOk_atKwk : WidthOk atKwk 257#17 := by
  refine ⟨?_, ?_, ?_, ?_, ?_, ?_, ?_⟩ <;> decide

/-- The invariant holds of a running state: StepKeepsInvariant, StepNeverStops, ChainErrorIsUnreachable. -/
theorem wit_inv_atRef : Inv atRef := by
  refine ⟨rfl, ⟨rfl, rfl, rfl, rfl⟩, ⟨by decide, by decide, by decide⟩, fun _ => rfl, fun h => (by cases h), ?_,
    fun h => (by cases h), fun _ => ?_⟩
  · refine ⟨?_, ?_, ?_, ?_, ?_⟩ <;> (try unfold Status.corrupt) <;> decide
  · exact ⟨258#17, rfl, widthOk_atRef, tableOk_atRef, 66#16, 0x42#8, rfl, rfl, by decide, by decide⟩

theorem wit_step_atRef : atRef.phase.readsCode = true ∧ nextIs (step atRef) (fun _ => true) = true := by decide +kernel

theorem wit_ResetLineReturnsToReset : ({ atRef with rst := true } : State).rst = true := rfl
theorem wit_TerminalPhasesHoldEverything_done :
    ({ atRef with phase := .done } : State).rst = false ∧ ({ atRef with phase := .done } : State).phase = .done := ⟨rfl, rfl⟩
theorem wit_TerminalPhasesHoldEverything_fault :
    ({ atRef with phase := .fault } : State).rst = false ∧ ({ atRef with phase := .fault } : State).phase = .fault :=
  ⟨rfl, rfl⟩

/-- What HeaderAccepted asks, with the control byte `h2`. -/
def acceptable (h2 : Byte) : Bool :=
  decide ((withInput [0x1F#8, 0x9D#8, h2]).rst = false ∧ (withInput [0x1F#8, 0x9D#8, h2]).phase = .header ∧
    (withInput [0x1F#8, 0x9D#8, h2]).src ≠ .eos ∧ (withInput [0x1F#8, 0x9D#8, h2]).h0 = none ∧
    (withInput [0x1F#8, 0x9D#8, h2]).h1 = none ∧ 9 ≤ (h2.extractLsb' 0 5).toNat ∧ (h2.extractLsb' 0 5).toNat ≤ 16)
theorem wit_HeaderAccepted_least : acceptable 0x09#8 = true := by decide
theorem wit_HeaderAccepted_greatest : acceptable 0x90#8 = true := by decide
theorem wit_HeaderRejected_state :
    (withInput [0x1E#8, 0x9D#8, 0x90#8]).rst = false ∧ (withInput [0x1E#8, 0x9D#8, 0x90#8]).phase = .header ∧
    (withInput [0x1E#8, 0x9D#8, 0x90#8]).src ≠ .eos ∧ (withInput [0x1E#8, 0x9D#8, 0x90#8]).h0 = none ∧
    (withInput [0x1E#8, 0x9D#8, 0x90#8]).h1 = none := by decide
theorem wit_HeaderRejected_magic : (0x1E#8 : Byte) ≠ 0x1F#8 ∧ (0x9C#8 : Byte) ≠ 0x9D#8 := by decide
theorem wit_HeaderRejected_maxbits :
    ((0x88#8 : Byte).extractLsb' 0 5).toNat = 8 ∧ ((0x91#8 : Byte).extractLsb' 0 5).toNat = 17 := by decide
theorem wit_HeaderCutShort :
    (withInput [0x1F#8, 0x9D#8]).rst = false ∧ (withInput [0x1F#8, 0x9D#8]).phase = .header ∧
    (withInput [0x1F#8, 0x9D#8]).src ≠ .eos ∧ (withInput [0x1F#8, 0x9D#8]).h0 = none ∧
    (withInput [0x1F#8, 0x9D#8]).h1 = none ∧ (withInput [0x1F#8, 0x9D#8]).input.length < 3 ∧
    (withInput [0x1F#8, 0x9D#8]).term = .eos ∧ ({ withInput [] with term := .err } : State).input.length < 3 := by decide
theorem wit_HeaderItemsEffect :
    ({ withInput [] with h0 := some 0x1F#8, h1 := some 0x9D#8 } : State).h0 = some 0x1F#8 ∧
    ({ withInput [] with h0 := some 0x1F#8, h1 := some 0x9D#8 } : State).h1 = some 0x9D#8 := ⟨rfl, rfl⟩

theorem wit_ClassificationIsExact : steadyCtx.fits 511#16 = true ∧ steadyCtx.fits 512#16 = false := by decide
theorem wit_ClassificationIsTotal :
    firstCtx.phase.readsCode = true ∧ steadyCtx.phase.readsCode = true ∧ steadyCtx.nextFree.isSome = true ∧
    clearedCtx.phase.readsCode = true ∧ clearedCtx.blockMode = true := by decide
/-- The header items, at the least width. -/
theorem wit_DecodeEncodeRoundTrip_header :
    (decodeCtx (withInput [])).widthOk = true ∧ (decodeCtx (withInput [])).admits (.hdrM0 0xFF#8) = true ∧
    ({ decodeCtx (withInput []) with hdrPos := .m1 } : DecodeCtx).admits (.hdrM1 0x00#8) = true ∧
    ({ decodeCtx (withInput []) with hdrPos := .ctl } : DecodeCtx).admits (.hdrCtl true 3#2 31#5) = true := by decide
/-- The code items, at the boundaries of their ranges. -/
theorem wit_DecodeEncodeRoundTrip_codes :
    steadyCtx.widthOk = true ∧ firstCtx.admits (.first 0xFF#8) = true ∧ firstCtx.admits (.badFirst 256#16) = true ∧
    firstCtx.admits (.badFirst 511#16) = true ∧ steadyCtx.admits .clr = true ∧ clearedCtx.admits .clr = true ∧
    clearedCtx.admits (.plit 0x00#8) = true ∧ clearedCtx.admits (.badPclr 257#16) = true ∧
    steadyCtx.admits (.lit 0xFF#8) = true ∧ steadyCtx.admits (.ref 257#16) = true ∧
    steadyCtx.admits (.kwk 258#16) = true ∧ steadyCtx.admits (.badRange 259#16) = true ∧
    steadyCtx.admits .endStream = true := by decide
/-- The greatest width, at the greatest offset, with the greatest code. -/
theorem wit_DecodeEncodeRoundTrip_widest :
    ({ steadyCtx with nBits := 16#5, bitOff := 7#3 } : DecodeCtx).widthOk = true ∧
    ({ steadyCtx with nBits := 16#5, bitOff := 7#3 } : DecodeCtx).admits (.badRange 65535#16) = true := by decide
theorem wit_StepRunsDecodedInstruction_code :
    atRef.rst = false ∧ atRef.phase.readsCode = true ∧ (decodeCtx atRef).widthOk = true ∧
    reads (decodeCtx atRef) (pending atRef) = some (.ref 257#16) := by decide
theorem wit_StepRunsDecodedInstruction_end :
    reads (decodeCtx (afterAB 0x04#8 [])) (pending (afterAB 0x04#8 [])) = some .endStream ∧
    ending (afterAB 0x04#8 []) = .eos := by decide

theorem wit_CorruptCodesRaise : ({ atRef with p0 := some 18 } : State).p0 = some 18 := rfl
theorem wit_CorruptCodesClassified :
    firstCtx.phase = .awaitFirst ∧ 256 ≤ (256#16 : Code).toNat ∧ clearedCtx.phase = .cleared ∧
    257 ≤ (257#16 : Code).toNat ∧ steadyCtx.phase = .steady ∧ steadyCtx.nextFree = some 258#17 ∧
    (258#17 : BitVec 17).toNat < (259#16 : Code).toNat ∧ ¬ (steadyCtx.blockMode = true ∧ (259#16 : Code) = 256#16) := by
  decide
theorem wit_ClearWithoutRealign : atRef.realign = .none := rfl
/-- D-G8-3: after the CLEAR has been read, `grp_cnt = 3`, 45 bits are to skip; `left` whole bytes follow the two buffered. -/
abbrev atSkip (bytes : List Byte) (e : Terminator) : State :=
  { afterAB 0x04#8 bytes with realign := .group8, grpCnt := 3#3, buf := [0x04#8, 0x00#8], bitOff := 3#3, term := e }

/-- 45 bits to skip and 45 left. -/
theorem wit_ClearUnderGroup8_enough :
    (atSkip [0#8, 0#8, 0#8, 0#8] .eos).realign = .group8 ∧
    ((atSkip [0#8, 0#8, 0#8, 0#8] .eos).buf = [] → (atSkip [0#8, 0#8, 0#8, 0#8] .eos).bitOff = 0#3) ∧
    ((8 - (atSkip [0#8, 0#8, 0#8, 0#8] .eos).grpCnt.toNat) % 8) * (atSkip [0#8, 0#8, 0#8, 0#8] .eos).nBits.toNat = 45 ∧
    8 * (pending (atSkip [0#8, 0#8, 0#8, 0#8] .eos)).length - (atSkip [0#8, 0#8, 0#8, 0#8] .eos).bitOff.toNat = 45 := by
  decide
/-- 45 bits to skip and 37 left, for both terminators. -/
theorem wit_ClearUnderGroup8_short :
    8 * (pending (atSkip [0#8, 0#8, 0#8] .err)).length - (atSkip [0#8, 0#8, 0#8] .err).bitOff.toNat = 37 ∧
    ending (atSkip [0#8, 0#8, 0#8] .err) = .err ∧ ending (atSkip [0#8, 0#8, 0#8] .eos) = .eos := by decide
theorem wit_EndEffect :
    (1 < ({ atRef with buf := [0#8, 0#8] } : State).buf.length) ∧
    (0x02#8 : Byte) >>> (1#3 : BitVec 3).toNat ≠ 0#8 ∧ (0x01#8 : Byte) >>> (1#3 : BitVec 3).toNat = 0#8 := by decide
theorem wit_LiteralWithoutRealign :
    atRef.realign = .none ∧ atRef.oldcode = some 66#16 ∧ atRef.nextFree = some 258#17 ∧
    256 ≤ (258#17 : BitVec 17).toNat ∧ atRef.maxBits.toNat ≤ 16 := by decide
theorem wit_LiteralCompletes :
    ({ atRef with realign := .group8 } : State).oldcode = some 66#16 ∧
    ({ atRef with nextFree := some 65536#17 } : State).nextFree = some 65536#17 ∧
    256 ≤ (65536#17 : BitVec 17).toNat := by decide
theorem wit_ReferenceEmitsExpansion :
    atRef.oldcode = some 66#16 ∧ atRef.nextFree = some 258#17 ∧ WidthOk atRef 258#17 ∧
    TableOk atRef.blockMode 258#17 atRef.table ∧ valid atRef.blockMode 258#17 257#16 = true ∧ atRef.stack = [] :=
  ⟨rfl, rfl, widthOk_atRef, tableOk_atRef, by decide, rfl⟩
theorem wit_KwkEmitsAndLearnsItself :
    atKwk.oldcode = some 65#16 ∧ atKwk.finchar = some 0x41#8 ∧ atKwk.nextFree = some 257#17 ∧ WidthOk atKwk 257#17 ∧
    TableOk atKwk.blockMode 257#17 atKwk.table ∧ valid atKwk.blockMode 257#17 65#16 = true ∧
    firstByte atKwk.table 65#16 = some 0x41#8 ∧ atKwk.stack = [] ∧ (257#16 : Code).toNat = (257#17 : BitVec 17).toNat ∧
    (257#16 : Code).toNat < 2 ^ atKwk.nBits.toNat :=
  ⟨rfl, rfl, rfl, widthOk_atKwk, tableOk_atKwk _, by decide, by decide, rfl, by decide, by decide⟩
/-- An invalid code: the first one above `next_free`. -/
theorem wit_ChainGuardRaises_invalid :
    atRef.nextFree = some 258#17 ∧ 256 ≤ (259#16 : Code).toNat ∧ ({ atRef with p0 := some 18 } : State).p0 = some 18 ∧
    valid atRef.blockMode 258#17 259#16 = false := by decide
/-- An entry that is its own prefix. -/
theorem wit_ChainGuardRaises_prefix :
    valid true 259#17 258#16 = true ∧
    Memory.read [(258, { pfx := 258#16, sfx := 0#8 })] (258#16 : Code).toNat = some { pfx := 258#16, sfx := 0#8 } ∧
    (258#16 : Code).toNat ≤ (258#16 : Code).toNat := by decide

theorem wit_SourceAnswersInOrder :
    ({ atRef with src := .eos } : State).src = .eos ∧ atRef.src ≠ .eos ∧ atRef.input = 0x04#8 :: [] ∧
    (withInput []).input = [] ∧ (withInput []).term = .eos ∧ ({ withInput [] with term := .err } : State).term = .err := by
  decide
theorem wit_StackIsLastInFirstOut :
    ({ atRef with stack := List.replicate 65280 0#8 } : State).stack.length < 65281 ∧
    65281 ≤ ({ atRef with stack := List.replicate 65281 0#8 } : State).stack.length := by
  simp only [List.length_replicate]
  decide
theorem wit_AvailCountsBits : ({ atRef with buf := [0#8, 0#8, 0#8] } : State).buf.length ≤ 3 := by decide
theorem wit_AdvanceMovesCursor : 6 ≤ avail atRef ∧ BufferOk atRef := ⟨by decide, by decide, by decide, by decide⟩
/-- Bits 2 to 16 of two bytes: a code of 14 bits fits, one of 15 does not. -/
theorem wit_ReadCodeMeetsBitStream :
    atRef.bitOff.toNat + 14 ≤ 8 * (pending atRef).length ∧ 8 * (pending atRef).length < atRef.bitOff.toNat + 15 := by decide
theorem wit_ReadCodeFetchesOnDemand :
    (atRef.buf = [] → atRef.bitOff = 0#3) ∧
    (match readCode 9 atRef with
      | .ok (.code v) t => decide (v = 257#16 ∧ t.input = [] ∧ t.requests = 7)
      | _ => false) = true := by decide +kernel
/-- One code left of the group (7 of 8 read): 9 bits to skip, with 14 or 6 left. -/
theorem wit_RealignSkipMovesToGroupEnd :
    (atRef.buf = [] → atRef.bitOff = 0#3) ∧ ((8 - (7#3 : BitVec 3).toNat) % 8) * 9 = 9 ∧
    8 * (pending atRef).length - atRef.bitOff.toNat = 14 ∧
    8 * (pending (afterAB 0x04#8 [])).length - (afterAB 0x04#8 []).bitOff.toNat = 6 := by decide

theorem wit_ValidCodes :
    valid true 258#17 255#16 = true ∧ valid true 258#17 256#16 = false ∧ valid true 258#17 257#16 = true ∧
    valid true 258#17 258#16 = false ∧ valid false 257#17 256#16 = true := by decide
theorem wit_InitAndResetTable : 256 ≤ (256#16 : Code).toNat := by decide
/-- D-CT-10 and D-CT-11: the last entry, and the full table. -/
theorem wit_LearnAppendsEntry :
    ({ atRef with nextFree := some 511#17, maxBits := 9#5 } : State).nextFree = some 511#17 ∧
    256 ≤ (511#17 : BitVec 17).toNat ∧ (9#5 : BitVec 5).toNat ≤ 16 ∧ (511#17 : BitVec 17).toNat < 2 ^ (9#5 : BitVec 5).toNat ∧
    2 ^ (9#5 : BitVec 5).toNat ≤ (512#17 : BitVec 17).toNat := by decide
theorem wit_LookupChainPushesExpansion :
    atRef.nextFree = some 258#17 ∧ TableOk atRef.blockMode 258#17 atRef.table ∧
    valid atRef.blockMode 258#17 257#16 = true ∧ expand atRef.table 257#16 = some (0x41#8 :: [0x42#8]) ∧
    atRef.stack.length + (0x41#8 :: [0x42#8]).length ≤ 65281 :=
  ⟨rfl, tableOk_atRef, by decide, by decide, by decide⟩
theorem wit_ExpansionIsBounded :
    TableOk true 258#17 [(257, { pfx := 65#16, sfx := 0x42#8 })] ∧ 256 ≤ (257#16 : Code).toNat ∧
    valid true 258#17 257#16 = true := ⟨tableOk_atRef, by decide, by decide⟩

/-- OutputIsAppendOnly, CursorNeverMovesBack, CursorMovesByCodeWidth, HeaderFieldsAreImmutable,
WidthGrowsByOneOrIsCleared, TableIsWrittenOnlyAtNextFree, PhaseTransitions: a code that learns. -/
theorem wit_code_step :
    atRef.rst = false ∧ atRef.phase ≠ .header ∧ atRef.phase.readsCode = true ∧ atRef.realign = .none ∧
    nextIs (step atRef) (fun t => decide (t.pos = 27 ∧ t.nBits = 9#5)) = true := by decide +kernel
/-- CursorMovesByCodeWidth's second clause: the end, and the source's error. -/
theorem wit_CursorMovesByCodeWidth_still :
    nextIs (step (afterA 0x00#8 [])) (fun t => decide (t.pos = 9 ∧ t.phase = .done)) = true ∧
    nextIs (step { afterA 0x00#8 [] with term := .err }) (fun t => decide (t.pos = 9 ∧ t.status = .errSourceIo)) = true := by
  decide +kernel
/-- WidthGrowsByOneOrIsCleared's second and third clauses. -/
theorem wit_WidthGrowsByOneOrIsCleared :
    nextIs (step { afterA 0x84#8 [0x00#8] with nextFree := some 511#17 }) (fun t => decide (t.nBits = 10#5)) = true ∧
    nextIs (step { afterA 0x00#8 [0x02#8, 0x00#8] with nBits := 10#5 })
      (fun t => decide (t.nBits = 9#5 ∧ t.phase = .cleared)) = true := by decide +kernel
/-- TableIsWrittenOnlyAtNextFree's first clause: at capacity nothing is written. -/
theorem wit_TableIsWrittenOnlyAtNextFree :
    nextIs (step { afterA 0x84#8 [0x00#8] with nextFree := some 512#17, maxBits := 9#5 })
      (fun t => decide (t.table = [] ∧ t.nextFree = some 512#17)) = true := by decide +kernel
/-- InvalidEntriesAreNeverRead: an entry above `next_free` that the other table lacks. -/
theorem wit_InvalidEntriesAreNeverRead :
    atRef.nextFree = some 258#17 ∧
    (∀ c : Code, 256 ≤ c.toNat → valid atRef.blockMode 258#17 c = true →
      Memory.read [(257, { pfx := 65#16, sfx := 0x42#8 }), (300, { pfx := 1#16, sfx := 1#8 })] c.toNat =
        atRef.table.read c.toNat) := by
  refine ⟨rfl, fun c hc hv => ?_⟩
  rw [valid_iff] at hv
  have h2 : (Config.firstFree atRef.blockMode).toNat = 257 := rfl
  have h3 : (258#17 : BitVec 17).toNat = 258 := rfl
  have h4 : c.toNat = 257 := by omega
  rw [h4]
  rfl
/-- PhaseTransitions: a step from HEADER, AWAIT_FIRST and CLEARED; STEADY is `wit_code_step`, the terminal phases are
TerminalPhasesHoldEverything's. -/
theorem wit_PhaseTransitions :
    nextIs (step (withInput [])) (fun t => decide (t.phase = .fault)) = true ∧
    nextIs (step (afterHeader [])) (fun t => decide (t.phase = .done)) = true ∧
    nextIs (step (afterClear 0x02#8 [0x04#8])) (fun t => decide (t.phase = .cleared)) = true := by
  decide +kernel
/-- SteadyStepEmitsExpansion, with `wit_inv_atRef`: REF 257 of D-REF-1 goes on in STEADY. -/
theorem wit_SteadyStepEmitsExpansion :
    atRef.rst = false ∧ atRef.phase.readsCode = true ∧
    nextIs (step atRef) (fun t => decide (t.phase = .steady ∧ t.oldcode = some 257#16)) = true := by decide +kernel
theorem wit_CorruptStreamIsPrecise :
    (afterAB 0x0C#8 [0x04#8]).status = .running ∧
    nextIs (step (afterAB 0x0C#8 [0x04#8])) (fun t => decide (t.status = .errCorruptRange)) = true ∧
    Status.corrupt .errCorruptRange := ⟨rfl, by decide +kernel, .inr (.inl rfl)⟩
theorem wit_SourceErrorIsPrecise :
    ({ afterA 0x84#8 [] with term := .err } : State).status = .running ∧
    nextIs (step { afterA 0x84#8 [] with term := .err }) (fun t => decide (t.status = .errSourceIo)) = true := by
  decide +kernel
/-- CodeCutShort: 7 of 9 bits left, for both terminators; one stray byte with a bit set, and one without. -/
theorem wit_CodeCutShort :
    (afterA 0x84#8 []).rst = false ∧ (afterA 0x84#8 []).phase.readsCode = true ∧
    9 ≤ (afterA 0x84#8 []).nBits.toNat ∧ (afterA 0x84#8 []).nBits.toNat ≤ 16 ∧
    8 * (pending (afterA 0x84#8 [])).length < (afterA 0x84#8 []).bitOff.toNat + (afterA 0x84#8 []).nBits.toNat ∧
    ending { afterA 0x84#8 [] with term := .err } = .err ∧ ending (afterA 0x84#8 []) = .eos ∧
    pending (afterA 0x84#8 []) = [0x84#8] ∧ (0x84#8 : Byte) >>> (afterA 0x84#8 []).bitOff.toNat ≠ 0#8 ∧
    (0x00#8 : Byte) >>> (afterA 0x00#8 []).bitOff.toNat = 0#8 := by decide
/-- CodeCutShort at the greatest width and offset: 23 bits from the first buffered one are wanted, 16 are there. -/
theorem wit_CodeCutShort_widest :
    8 * (pending { atRef with bitOff := 7#3, nBits := 16#5 }).length <
      ({ atRef with bitOff := 7#3, nBits := 16#5 } : State).bitOff.toNat +
        ({ atRef with bitOff := 7#3, nBits := 16#5 } : State).nBits.toNat := by decide
/-- `TailResult` of a growth under GROUP8: the entry that makes `next_free` 512, with one code of the group read (63 bits
to skip), and 70 or 62 bits left, for both terminators. -/
abbrev atGrowth (bytes : List Byte) (e : Terminator) : State :=
  { afterA 0x00#8 bytes with
    realign := .group8, grpCnt := 1#3, nextFree := some 511#17, term := e, buf := [0#8], bitOff := 2#3 }
theorem wit_TailResult_growth :
    grows (atGrowth [] .eos) 511#17 = true ∧ groupRest (atGrowth [] .eos) = 63 ∧
    bitsLeft (atGrowth (List.replicate 8 0#8) .eos) = 70 ∧ bitsLeft (atGrowth (List.replicate 7 0#8) .err) = 62 ∧
    ending (atGrowth (List.replicate 7 0#8) .err) = .err ∧ ending (atGrowth (List.replicate 7 0#8) .eos) = .eos := by
  decide
/-- R60, R89: the skip takes the bytes it needs and no more (6 bits are buffered, 57 are wanted), and the source's error in
it is taken with the entry and the width kept (R102). -/
theorem test_growth_under_group8 :
    nextIs (exec (.lit 0x42#8) (atGrowth (List.replicate 9 0#8) .eos))
      (fun t => decide (t.pos = (atGrowth [] .eos).pos + 63 ∧ t.bitOff = 1#3 ∧ t.buf = [0#8] ∧ t.input = [0#8] ∧
        t.nBits = 10#5 ∧ t.phase = .steady)) = true ∧
    nextIs (exec (.lit 0x42#8) (atGrowth (List.replicate 7 0#8) .err))
      (fun t => decide (t.pos = (atGrowth [] .eos).pos + 62 ∧ t.buf = [] ∧ t.bitOff = 0#3 ∧ t.nBits = 10#5 ∧
        t.nextFree = some 512#17 ∧ t.status = .errSourceIo ∧ t.phase = .fault)) = true := by decide +kernel

end Sys2Proof.Tests
end

section
/-! The header fields `max_bits` and `block_mode` (R7, R16, R17): only the header step and reset write them. -/

namespace Sys2Proof.Machine

/-- Each end of a code step writes over `reread s t`, and no end writes these two registers. -/
theorem CodeEnd.maxBits_blockMode {s t : State} (h : CodeEnd s t) :
    t.maxBits = s.maxBits ∧ t.blockMode = s.blockMode := by
  cases h with
  | sourceError hf | endStream hf | literal _ _ hf | corrupt _ _ _ _ hf | clear _ _ hf
  | steady _ _ _ _ _ _ _ _ _ hf => rw [hf]; exact ⟨rfl, rfl⟩

/-- Settles O44: with the reset line 0 and the header behind it, a step is a terminal phase's, which changes nothing, or a
code's, none of whose ends writes the header fields. -/
theorem headerFieldsAreImmutable : Obligations.HeaderFieldsAreImmutable := by
  intro s t hr hp h
  rcases step_phase_cases h with ⟨hrst, _⟩ | ⟨_, ⟨hhdr, _⟩ | ⟨_, rfl⟩ | ⟨_, hcode⟩⟩
  · simp [hr] at hrst
  · exact absurd hhdr hp
  · exact ⟨rfl, rfl⟩
  · exact (codeEnd_of_codeStep hcode).maxBits_blockMode

end Sys2Proof.Machine
end

section
/-! What the header step can do (R74 to R77, R100, R101). -/

namespace Sys2Proof.Machine

/-- `s` with what the items of the header may have changed before they end it taken from `t` (R75 to R77). -/
def reheaded (s t : State) : State :=
  { s with
    maxBits := t.maxBits, blockMode := t.blockMode, src := t.src, input := t.input, requests := t.requests,
    h0 := t.h0, h1 := t.h1 }

/-- The two ends of the header: an exception that is no CorruptStreamError, or the start of the stream (R77, R101). -/
inductive HeaderEnd (s t : State) : Prop where
  | rejected (st : Status) (hst : st.fatal = true) (hc : ¬ st.corrupt)
      (hf : t = { reheaded s t with status := st, stack := [], phase := .fault })
  | accepted (hlo : 9 ≤ t.maxBits.toNat) (hhi : t.maxBits.toNat ≤ 16) (hs : t.src = s.src)
      (hf : t = acceptHeader (reheaded s t))

theorem HeaderEnd.phase_ne_header {s t : State} (h : HeaderEnd s t) : t.phase ≠ .header := by
  cases h with
  | rejected _ _ _ hf => rw [hf]; simp
  | accepted _ _ _ hf => rw [hf]; simp

/-- An item that leaves the engine in HEADER has taken a byte and may hold it (R75, R76). -/
def HeaderGoesOn (s u : State) : Prop :=
  u = { s with input := u.input, requests := u.requests, h0 := u.h0, h1 := u.h1 }

theorem HeaderEnd.of_goesOn {s u t : State} (hu : HeaderGoesOn s u) (h : HeaderEnd u t) : HeaderEnd s t := by
  unfold HeaderGoesOn at hu
  generalize u.input = q1, u.requests = q2, u.h0 = q3, u.h1 = q4 at hu
  subst hu
  cases h with
  | rejected st hst hc hf => exact .rejected st hst hc hf
  | accepted hlo hhi hs hf => exact .accepted hlo hhi hs hf

theorem execHdrCtl_end {block : Bool} {rsvd : BitVec 2} {maxbits : BitVec 5} {s t : State}
    (h : execHdrCtl block rsvd maxbits s = .next t) : HeaderEnd s t := by
  unfold execHdrCtl at h
  split at h
  · split at h
    · injection h with h
      subst h
      exact .rejected .errFormatMagic (by decide) (by simp [Status.corrupt]) rfl
    · simp only [Config.minBitsLimit, Config.maxBitsLimit] at h
      split at h
      · injection h with h
        subst h
        exact .rejected .errFormatMaxbits (by decide) (by simp [Status.corrupt]) rfl
      · next hm =>
        injection h with h
        subst h
        simp only [not_or, Nat.not_lt] at hm
        exact .accepted hm.1 hm.2 rfl rfl
  · cases h

/-- A header byte's meaning ends the header, or holds the byte (R75 to R77). -/
theorem exec_headerByte {p : HdrPos} {b : Byte} {s t : State} (h : exec (decodeHeader p b) s = .next t) :
    HeaderEnd s t ∨ HeaderGoesOn s t := by
  cases p with
  | m0 => injection h with h; subst h; exact .inr rfl
  | m1 => injection h with h; subst h; exact .inr rfl
  | ctl => exact .inl (execHdrCtl_end (rsvd := b.extractLsb' 5 2) h)

theorem runItem_header {s t : State} (hp : s.phase = .header) (h : runItem s = .next t) :
    HeaderEnd s t ∨ HeaderGoesOn s t := by
  simp only [runItem, fetchItem, hp, fetchHeader, hdrFetch] at h
  rcases srcNext_cases s with ⟨b, rest, _, _, hn⟩ | ⟨_, hn⟩ | ⟨_, _, _, hn⟩ | ⟨_, _, _, hn⟩ <;> rw [hn] at h
  · have hu : HeaderGoesOn s { s with input := rest, requests := s.requests + 1 } := rfl
    rcases exec_headerByte h with he | hg
    · exact .inl (he.of_goesOn hu)
    · right
      unfold HeaderGoesOn at *
      rw [hg]
  all_goals injection h with h; subst h; left
  · exact .rejected .errFormatShort (by decide) (by simp [Status.corrupt]) rfl
  · exact .rejected .errFormatShort (by decide) (by simp [Status.corrupt]) rfl
  · exact .rejected .errSourceIo (by decide) (by simp [Status.corrupt]) rfl

theorem hdrItems_end {n : Nat} {s t : State} (hp : s.phase = .header) (h : hdrItems n s = .next t) : HeaderEnd s t := by
  induction n generalizing s with
  | zero => cases h
  | succ n ih =>
    rw [hdrItems] at h
    split at h
    · next u hu =>
      have hitem := runItem_header hp hu
      split at h
      · next hup =>
        rcases hitem with he | hg
        · exact absurd hup he.phase_ne_header
        · exact (ih hup h).of_goesOn hg
      · next hup =>
        injection h with h
        subst h
        rcases hitem with he | hg
        · exact he
        · exact absurd (by rw [hg]; exact hp) hup
    · cases h
    · cases h

/-- The header step ends the header and drops the working values (R27, R74). -/
theorem hdrStep_end {s t : State} (hp : s.phase = .header) (h : hdrStep s = .next t) :
    ∃ u, HeaderEnd s u ∧ t = dropWork u := by
  unfold hdrStep endStep at h
  split at h
  · next u hu =>
    injection h with h
    exact ⟨u, hdrItems_end hp hu, h.symm⟩
  · cases h
  · cases h

end Sys2Proof.Machine
end

section
/-! `phase`, `status`, `warn_trunc` and the fault latches agree: what that says while the engine runs, and how it is shown
(R20, R21, R25). -/

namespace Sys2Proof.Machine

theorem Status.running_iff (st : Status) : st = .running ↔ st.finished = false ∧ st.fatal = false := by
  cases st <;> decide

/-- Before the end of the decode `status` is RUNNING and nothing is latched (R20, R21, R25). -/
theorem StatusOk.running {s : State} (h : StatusOk s) (hd : s.phase ≠ .done) (hf : s.phase ≠ .fault) :
    s.status = .running ∧ s.warnTrunc = false ∧ s.faultCode = none ∧ s.faultPos = none := by
  obtain ⟨hdone, hfault, hwarn, hcode, hpos⟩ := h
  have hr : s.status = .running := (Status.running_iff _).2
    ⟨Bool.eq_false_iff.2 (hdone.not.1 hd), Bool.eq_false_iff.2 (hfault.not.1 hf)⟩
  simpa [hr, Status.corrupt] using And.intro hwarn (And.intro hcode hpos)

theorem Status.not_finished_of_fatal {st : Status} (h : st.fatal = true) :
    st.finished = false ∧ st ≠ .doneTruncated := by
  cases st <;> simp_all [Status.fatal, Status.finished, statusBits]

theorem statusOk_of_fault {t : State} (hph : t.phase = .fault) (hst : t.status.fatal = true)
    (hw : t.warnTrunc = false) (hc : t.faultCode.isSome = true ↔ t.status.corrupt)
    (hp : t.faultPos.isSome = true ↔ t.status.corrupt) : StatusOk t := by
  obtain ⟨hfin, htr⟩ := Status.not_finished_of_fatal hst
  exact ⟨by simp [hph, hfin], by simp [hph, hst], by simp [hw, htr], hc, hp⟩

/-- With nothing latched the engine runs, or has met an exception that is no CorruptStreamError (R25). -/
theorem statusOk_of_no_latch {t : State} (hw : t.warnTrunc = false) (hc : t.faultCode = none) (hp : t.faultPos = none)
    (h : (t.phase ≠ .done ∧ t.phase ≠ .fault ∧ t.status = .running) ∨
      (t.phase = .fault ∧ t.status.fatal = true ∧ ¬ t.status.corrupt)) : StatusOk t := by
  rcases h with ⟨hd, hf, hst⟩ | ⟨hph, hst, hnc⟩
  · simp [StatusOk, hd, hf, hst, hw, hc, hp, Status.corrupt, Status.finished, Status.fatal, statusBits]
  · exact statusOk_of_fault hph hst hw (by simp [hc, hnc]) (by simp [hp, hnc])

theorem Phase.readsCode_iff (p : Phase) : p.readsCode = true ↔ p ≠ .header ∧ p ≠ .done ∧ p ≠ .fault := by
  cases p <;> decide

theorem Status.fatal_of_corrupt {st : Status} (h : st.corrupt) : st.fatal = true := by
  rcases h with rfl | rfl | rfl | rfl <;> decide

end Sys2Proof.Machine
end

section
/-! What LEARN and GROW keep of the table and the width (R33, R50, R69, R89). -/

namespace Sys2Proof.Machine

/-- No learned code is valid while `next_free` is FIRST_FREE (R64, R70). -/
theorem tableOk_firstFree (b : Bool) (m : Memory) : TableOk b (Config.firstFree b) m := by
  intro c hl hv
  have hc : ¬ c.toNat < 256 := by rw [← isLiteral_iff]; simp [hl]
  rw [valid_iff] at hv
  omega

/-- The widths where a stream or a table starts (R64, R70, R77, R81). -/
theorem widthOk_firstFree {t : State} (hn : t.nBits = 9#5) (hlo : 9 ≤ t.maxBits.toNat) (hhi : t.maxBits.toNat ≤ 16) :
    WidthOk t (Config.firstFree t.blockMode) := by
  have hff := firstFree_bounds t.blockMode
  have hpow : 2 ^ 9 ≤ 2 ^ t.maxBits.toNat := Nat.pow_le_pow_right (by decide) hlo
  have h9 : t.nBits.toNat = 9 := by rw [hn]; rfl
  simp only [WidthOk, h9, Config.minBitsLimit, Config.maxBitsLimit]
  omega

theorem WidthOk.maxBits_le {s : State} {nf : BitVec 17} (h : WidthOk s nf) : s.maxBits.toNat ≤ 16 := h.2.2.1

theorem WidthOk.firstFree_le {s : State} {nf : BitVec 17} (h : WidthOk s nf) :
    (Config.firstFree s.blockMode).toNat ≤ nf.toNat := h.2.2.2.1

/-- Below capacity `next_free` has storage (R31, R69). -/
theorem WidthOk.hasStorage {s : State} {nf : BitVec 17} (h : WidthOk s nf) (hlt : nf.toNat < 2 ^ s.maxBits.toNat) :
    hasStorage nf.toNat = true := by
  have hff := firstFree_bounds s.blockMode
  have hlo := h.firstFree_le
  have : 2 ^ s.maxBits.toNat ≤ 2 ^ 16 := Nat.pow_le_pow_right (by decide) h.maxBits_le
  simp only [Machine.hasStorage, Config.nLiterals, Config.codeLimit, Bool.and_eq_true, decide_eq_true_eq]
  omega

/-- LEARN adds one to `next_free`, below capacity, without wrapping (R69). -/
theorem learnedNext_toNat {s : State} {nf : BitVec 17} (hmax : s.maxBits.toNat ≤ 16) :
    (learnedNext s nf).toNat = if nf.toNat < 2 ^ s.maxBits.toNat then nf.toNat + 1 else nf.toNat := by
  have : 2 ^ s.maxBits.toNat ≤ 2 ^ 16 := Nat.pow_le_pow_right (by decide) hmax
  unfold learnedNext
  split
  · rw [BitVec.toNat_add, BitVec.toNat_ofNat, Nat.mod_eq_of_lt (by omega)]
  · rfl

theorem le_learnedNext {s : State} {nf : BitVec 17} (hmax : s.maxBits.toNat ≤ 16) :
    nf.toNat ≤ (learnedNext s nf).toNat := by
  rw [learnedNext_toNat hmax]
  split <;> omega

theorem grows_iff (s : State) (nf : BitVec 17) :
    grows s nf = true ↔ 2 ^ s.nBits.toNat - 1 < (learnedNext s nf).toNat ∧ s.nBits.toNat < s.maxBits.toNat := by
  simp [grows, growDue]

/-- A growth does not wrap: it happens below `max_bits` (R89). -/
theorem nBits_succ_toNat {s : State} (h : s.nBits.toNat < s.maxBits.toNat) :
    (s.nBits + 1#5).toNat = s.nBits.toNat + 1 := by
  have := s.maxBits.isLt
  rw [BitVec.toNat_add, BitVec.toNat_ofNat, Nat.mod_eq_of_lt (by omega)]

/-- After LEARN and GROW the width is again the least that fits (R50, R89). -/
theorem widthOk_learned {s t : State} {nf : BitVec 17} (hw : WidthOk s nf) (hm : t.maxBits = s.maxBits)
    (hb : t.blockMode = s.blockMode) (hn : t.nBits = if grows s nf = true then s.nBits + 1#5 else s.nBits) :
    WidthOk t (learnedNext s nf) := by
  have hnext := learnedNext_toNat (nf := nf) hw.maxBits_le
  have hgrow := grows_iff s nf
  obtain ⟨hlo, hle, hhi, hff, hcap, hfit, hleast⟩ := hw
  have hone : 1 ≤ 2 ^ s.nBits.toNat := Nat.one_le_two_pow
  have hstep : nf.toNat ≤ (learnedNext s nf).toNat ∧ (learnedNext s nf).toNat ≤ nf.toNat + 1 ∧
      (learnedNext s nf).toNat ≤ 2 ^ s.maxBits.toNat := by
    rw [hnext]; split <;> omega
  obtain ⟨hge, hsucc, hcap'⟩ := hstep
  unfold WidthOk
  rw [hm, hb, hn]
  by_cases hg : grows s nf = true
  · obtain ⟨hover, hbelow⟩ := hgrow.1 hg
    have hfit' := hfit hbelow
    rw [if_pos hg, nBits_succ_toNat hbelow, Nat.add_sub_cancel, Nat.pow_succ]
    exact ⟨by omega, by omega, hhi, by omega, hcap', fun _ => by omega, fun _ => by omega⟩
  · have hstay : s.nBits.toNat < s.maxBits.toNat → (learnedNext s nf).toNat ≤ 2 ^ s.nBits.toNat - 1 :=
      fun h => Nat.not_lt.1 fun h' => hg (hgrow.2 ⟨h', h⟩)
    rw [if_neg hg]
    exact ⟨hlo, hle, hhi, by omega, hcap', hstay, fun h => Nat.le_trans (hleast h) hge⟩

/-- LEARN gives the code `next_free` an entry that continues a smaller valid code (R33 (c), R69). -/
theorem tableOk_learned {s : State} {nf : BitVec 17} {p : Code} (fb : Byte) (hw : WidthOk s nf)
    (ht : TableOk s.blockMode nf s.table) (hp : valid s.blockMode nf p = true) :
    TableOk s.blockMode (learnedNext s nf) (learnedTable s nf p fb) := by
  have hff := firstFree_bounds s.blockMode
  have hge := hw.firstFree_le
  have hmono := le_learnedNext (nf := nf) hw.maxBits_le
  intro c hl hv
  by_cases hlt : nf.toNat < 2 ^ s.maxBits.toNat
  · have hnext := learnedNext_toNat (nf := nf) hw.maxBits_le
    rw [if_pos hlt] at hnext
    simp only [learnedTable, if_pos hlt]
    by_cases hc : c.toNat = nf.toNat
    · refine ⟨_, by rw [hc]; exact Memory.read_write_same _ _ _, ?_, valid_mono hp hmono⟩
      have := (valid_iff _ _ _).1 hp
      simp only
      omega
    · have hv' : valid s.blockMode nf c = true := by
        rw [valid_iff] at hv ⊢
        omega
      obtain ⟨e, hr, hsmall, hve⟩ := ht c hl hv'
      exact ⟨e, by rw [Memory.read_write_other _ _ hc, hr], hsmall, valid_mono hve hmono⟩
  · simp only [learnedTable, learnedNext, if_neg hlt] at *
    exact ht c hl hv

/-- LEARN changes no expansion of a valid code (R33 (b)). -/
theorem expand_learnedTable {s : State} {nf : BitVec 17} (p : Code) (fb : Byte) {c : Code} (hw : WidthOk s nf)
    (ht : TableOk s.blockMode nf s.table) (hc : valid s.blockMode nf c = true) :
    expand (learnedTable s nf p fb) c = expand s.table c := by
  have hff := firstFree_bounds s.blockMode
  have hge := hw.firstFree_le
  unfold learnedTable
  split
  · exact expand_write ht _ c hc (by omega)
  · rfl

/-- The code LEARN has just given an entry expands to the expansion it continues and one byte more (R66, R69). -/
theorem expand_learnedTable_next {s : State} {nf : BitVec 17} {p c : Code} {bs : List Byte} (fb : Byte)
    (hw : WidthOk s nf) (ht : TableOk s.blockMode nf s.table) (hp : valid s.blockMode nf p = true)
    (hx : expand s.table p = some bs) (hc : c.toNat = nf.toNat) (hlt : nf.toNat < 2 ^ s.maxBits.toNat) :
    expand (learnedTable s nf p fb) c = some (bs ++ [fb]) := by
  have hff := firstFree_bounds s.blockMode
  have hge := hw.firstFree_le
  have hl : isLiteral c = false := by
    rw [Bool.eq_false_iff, ne_eq, isLiteral_iff]
    omega
  have hr : (learnedTable s nf p fb).read c.toNat = some { pfx := p, sfx := fb } := by
    rw [learnedTable, if_pos hlt, hc]
    exact Memory.read_write_same _ _ _
  have hsmall : p.toNat < c.toNat := by
    have := (valid_iff _ _ _).1 hp
    omega
  exact expand_learned hl hr hsmall (by rw [expand_learnedTable p fb hw ht hp, hx])

end Sys2Proof.Machine
end

section
/-! The meanings of LIT, REF and KWK on a state with the invariant's table (R84 to R86): each emits the expansion that its
code has after LEARN, and then is TAIL. -/

namespace Sys2Proof.Machine

/-- The stack holds every expansion of a valid code, on top of the byte that KWK pushes first (R67, R71). -/
theorem lookupChain_of_tableOk {u : State} {nf : BitVec 17} {c : Code} (hn : u.nextFree = some nf)
    (ht : TableOk u.blockMode nf u.table) (hv : valid u.blockMode nf c = true) (hst : u.stack.length ≤ 1)
    (hroom : u.stack.length + c.toNat ≤ 65535) :
    ∃ x xs, expand u.table c = some (x :: xs) ∧ lookupChain c u = .ok x { u with stack := x :: xs ++ u.stack } := by
  have hff := firstFree_bounds u.blockMode
  obtain ⟨x, xs, hx, hlit, hlearned⟩ := expand_total ht c hv
  refine ⟨x, xs, hx, lookupChain_eq hx hn ht hv ?_⟩
  rcases hl : isLiteral c with _ | _
  · have := hlearned hl
    simp only [Config.stackDepth]
    omega
  · simp only [hlit hl, List.length_singleton, Config.stackDepth]
    omega

theorem execRef_eq_tail {u : State} {nf : BitVec 17} {c : Code} (hn : u.nextFree = some nf)
    (ht : TableOk u.blockMode nf u.table) (hv : valid u.blockMode nf c = true) (hs : u.stack = []) :
    ∃ x xs, expand u.table c = some (x :: xs) ∧
      execRef c u = (tail c x { u with out := u.out ++ x :: xs, stack := [] }).toOutcome := by
  have hc : c.toNat < 65536 := c.isLt
  obtain ⟨x, xs, hx, hl⟩ := lookupChain_of_tableOk hn ht hv (by simp [hs]) (by simp only [hs, List.length_nil]; omega)
  refine ⟨x, xs, hx, ?_⟩
  simp only [execRef, hl, Flow.andThen, emitStack_eq, hs, List.append_nil]

theorem execKwk_eq_tail {u : State} {nf : BitVec 17} {oc : Code} {fc : Byte} (c : Code) (hn : u.nextFree = some nf)
    (ht : TableOk u.blockMode nf u.table) (ho : u.oldcode = some oc) (hf : u.finchar = some fc)
    (hv : valid u.blockMode nf oc = true) (hlt : oc.toNat < 65535) (hs : u.stack = []) :
    ∃ x xs, expand u.table oc = some (x :: xs) ∧
      execKwk c u = (tail c x { u with out := u.out ++ (x :: xs ++ [fc]), stack := [] }).toOutcome := by
  have hpush : push oc fc u = .ok () { u with stack := fc :: u.stack } := push_ok _ _ (by simp [hs, Config.stackDepth])
  obtain ⟨x, xs, hx, hl⟩ := lookupChain_of_tableOk (u := { u with stack := fc :: u.stack }) hn ht hv
    (by simp [hs]) (by simp only [hs, List.length_singleton]; omega)
  refine ⟨x, xs, hx, ?_⟩
  simp only [execKwk, ho, hf]
  simp only [hpush, Flow.andThen, hl, emitStack_eq]
  rw [hs, ho, hf]

/-- A step from STEADY to STEADY: TAIL with the code `c` and the first byte `fb` of the bytes emitted, which are the
expansion of `c` once `(p, fb)` is learned at `nf` (R73, R84 to R86, R88). -/
structure SteadyStep (s t : State) (nf : BitVec 17) (p c : Code) (fb : Byte) (xs : List Byte) : Prop where
  old_nextFree : s.nextFree = some nf
  old_oldcode : s.oldcode = some p
  nextFree : t.nextFree = some (learnedNext s nf)
  table : t.table = learnedTable s nf p fb
  oldcode : t.oldcode = some c
  finchar : t.finchar = some fb
  nBits : t.nBits = if grows s nf = true then s.nBits + 1#5 else s.nBits
  stack : t.stack = []
  out : t.out = s.out ++ fb :: xs
  valid : valid s.blockMode (learnedNext s nf) c = true
  expansion : expand t.table c = some (fb :: xs)

theorem steadyStep_of_tail {u v : State} {nf : BitVec 17} {p c : Code} {fb : Byte} {xs : List Byte}
    (hn : u.nextFree = some nf) (ho : u.oldcode = some p) (hw : WidthOk u nf)
    (hv : Machine.valid u.blockMode (learnedNext u nf) c = true)
    (hx : expand (learnedTable u nf p fb) c = some (fb :: xs)) (hph : v.phase ≠ .fault)
    (h : (tail c fb { u with out := u.out ++ fb :: xs, stack := [] }).toOutcome = .next v) :
    SteadyStep u v nf p c fb xs := by
  obtain ⟨v', htail, hT, _⟩ := tail_cases (s := { u with out := u.out ++ fb :: xs, stack := [] }) c fb ho hn hw.hasStorage
  rw [htail] at h
  injection h with h
  subst h
  have hstack : v'.stack = [] := by
    rcases hT.outcome with ⟨_, _, hstack, _⟩ | ⟨_, _, _, _, hfault, _⟩
    · exact hstack
    · exact absurd hfault hph
  exact ⟨hn, ho, hT.nextFree, hT.table, hT.oldcode, hT.finchar, hT.nBits, hstack, congrArg State.out hT.frame, hv,
    by rw [hT.table]; exact hx⟩

/-- A code that is neither CLEAR nor a literal is not below FIRST_FREE (R6, R51). -/
theorem firstFree_le_of_not_clear {b : Bool} {c : Code} (hb : isClear b c = false) (hc : 256 ≤ c.toNat) :
    (Config.firstFree b).toNat ≤ c.toNat := by
  cases b with
  | false => exact hc
  | true =>
    have hne : c.toNat ≠ 256 := fun h => by
      have : c = Config.clearCode := BitVec.eq_of_toNat_eq h
      simp [isClear, this] at hb
    have : (Config.firstFree true).toNat = 257 := rfl
    omega

theorem execClr_phase {u v : State} (h : execClr u = .next v) : v.phase = .cleared ∨ v.phase = .fault := by
  rcases execClr_cases u with ⟨_, he⟩ | ⟨_, a, t, hk, ⟨_, he⟩ | ⟨_, he⟩⟩ <;> rw [he] at h <;> injection h with h <;> subst h
  · exact .inl rfl
  · exact .inl (congrArg State.phase hk.frame)
  · exact .inr rfl

section
variable {u v : State} {nf : BitVec 17} {oc : Code} {fc : Byte}
variable (hn : u.nextFree = some nf) (hw : WidthOk u nf) (ht : TableOk u.blockMode nf u.table) (hs : u.stack = [])
variable (ho : u.oldcode = some oc) (hph : v.phase ≠ .fault)
include hn hw ht hs ho hph

omit ht in
/-- LIT (R84). -/
theorem execLit_steadyStep {x : Byte} (h : execLit x u = .next v) : SteadyStep u v nf oc x.toCode x [] := by
  have hl := isLiteral_toCode x
  have hemit : emit x u = { u with out := u.out ++ [x], stack := [] } := by simp only [emit, hs]
  rw [execLit, hemit] at h
  exact steadyStep_of_tail hn ho hw (by simp [valid, hl]) (by rw [expand_literal _ hl, low_toCode]) hph h

/-- REF (R85). -/
theorem execRef_steadyStep {c : Code} (hv : valid u.blockMode nf c = true) (h : execRef c u = .next v) :
    ∃ fb xs, SteadyStep u v nf oc c fb xs := by
  obtain ⟨x, xs, hx, hrun⟩ := execRef_eq_tail hn ht hv hs
  rw [hrun] at h
  exact ⟨x, xs, steadyStep_of_tail hn ho hw (valid_mono hv (le_learnedNext hw.maxBits_le))
    (by rw [expand_learnedTable oc x hw ht hv, hx]) hph h⟩

/-- KWK (R86): the code fits the width, so `next_free` is below capacity and LEARN gives the code its entry. -/
theorem execKwk_steadyStep {c : Code} (hvo : valid u.blockMode nf oc = true) (hf : u.finchar = some fc)
    (hfc : firstByte u.table oc = some fc) (hfit : c.toNat < 2 ^ u.nBits.toNat) (hc : c.toNat = nf.toNat)
    (h : execKwk c u = .next v) : ∃ fb xs, SteadyStep u v nf oc c fb xs := by
  have hlt : nf.toNat < 2 ^ u.maxBits.toNat := by
    have : 2 ^ u.nBits.toNat ≤ 2 ^ u.maxBits.toNat := Nat.pow_le_pow_right (by decide) hw.2.1
    omega
  have hoc : oc.toNat < nf.toNat := by
    have hff := firstFree_bounds u.blockMode
    have hge := hw.firstFree_le
    have := (valid_iff _ _ _).1 hvo
    omega
  have hcode : c.toNat < 65536 := c.isLt
  obtain ⟨x, xs, hx, hrun⟩ := execKwk_eq_tail c hn ht ho hf hvo (by omega) hs
  have hxfc : fc = x := by simpa [firstByte, hx] using hfc.symm
  subst hxfc
  rw [hrun] at h
  have hnext : valid u.blockMode (learnedNext u nf) c = true := by
    have hto := learnedNext_toNat (nf := nf) hw.maxBits_le
    rw [if_pos hlt] at hto
    have hge := hw.firstFree_le
    rw [valid_iff]
    omega
  exact ⟨fc, xs ++ [fc], steadyStep_of_tail hn ho hw hnext (expand_learnedTable_next fc hw ht hvo hx hc hlt) hph h⟩

end

/-- Every code that goes on in STEADY (R51, R73). -/
theorem exec_steadyStep {u v : State} {c : Code} {i : Instr} (hC : CodeOk u) (hp : u.phase = .steady)
    (hs : u.stack = []) (hfit : c.toNat < 2 ^ u.nBits.toNat) (hc : classify (decodeCtx u) c = .ok i)
    (hx : exec i u = .next v) (hph : v.phase = .steady) : ∃ nf p d fb xs, SteadyStep u v nf p d fb xs := by
  obtain ⟨nf, hn, hw, ht, hphase⟩ := hC
  simp only [PhaseOk, hp] at hphase
  obtain ⟨oc, fc, ho, hf, hvo, hfc⟩ := hphase
  have hnf : v.phase ≠ .fault := by rw [hph]; decide
  have hsteady : classify (decodeCtx u) c = classifySteady u.blockMode u.nextFree c := by simp [classify, decodeCtx, hp]
  rw [hsteady] at hc
  rcases classifySteady_ok hc with ⟨rfl, _⟩ | ⟨_, _, rfl⟩ | ⟨hb, h256, n, hn', hrow⟩
  · rcases execClr_phase hx with h | h <;> rw [hph] at h <;> cases h
  · exact ⟨nf, oc, _, _, _, execLit_steadyStep hn hw hs ho hnf hx⟩
  · obtain rfl : n = nf := by rw [hn] at hn'; injection hn' with h; exact h.symm
    rcases hrow with ⟨hlt, rfl⟩ | ⟨heq, rfl⟩ | ⟨_, rfl⟩
    · have hv : valid u.blockMode n c = true := (valid_iff _ _ _).2 (.inr ⟨firstFree_le_of_not_clear hb h256, hlt⟩)
      exact ⟨n, oc, c, execRef_steadyStep hn hw ht hs ho hnf hv hx⟩
    · exact ⟨n, oc, c, execKwk_steadyStep hn hw ht hs ho hnf hvo hf hfc hfit heq hx⟩
    · injection hx with hx
      exact absurd (by rw [← hx]; rfl) hnf

/-- `SteadyStep`, lifted from a code's meaning to the whole step. -/
theorem SteadyStep.of_fetched {s u v : State} {nf : BitVec 17} {p c : Code} {fb : Byte} {xs : List Byte}
    (hu : CodeFetched s u) (h : SteadyStep u v nf p c fb xs) : SteadyStep s (dropWork v) nf p c fb xs := by
  have hf := hu.frame
  generalize u.buf = q1, u.bitOff = q2, u.grpCnt = q3, u.input = q4, u.requests = q5 at hf
  clear hu
  subst hf
  exact ⟨h.old_nextFree, h.old_oldcode, h.nextFree, h.table, h.oldcode, h.finchar, h.nBits, h.stack, h.out, h.valid,
    h.expansion⟩

theorem codeStep_steadyStep {s t : State} (hC : CodeOk s) (hp : s.phase = .steady) (hs : s.stack = [])
    (h : CodeStep s t) (hph : t.phase = .steady) : ∃ nf p c fb xs, SteadyStep s t nf p c fb xs := by
  cases h with
  | sourceError u hu _ ht => rw [ht] at hph; cases hph
  | endStream u v hu _ hv ht => injection hv with hv; rw [ht, ← hv] at hph; cases hph
  | code u v c i hu hfit hc hx ht =>
    subst ht
    have hCu : CodeOk u := by rw [hu.frame]; exact hC
    rw [← decodeCtx_fetched hu] at hc
    have hfitu : c.toNat < 2 ^ u.nBits.toNat := by rw [hu.frame]; exact of_decide_eq_true hfit
    obtain ⟨nf, p, d, fb, xs, hstep⟩ :=
      exec_steadyStep hCu (by rw [hu.frame]; exact hp) (by rw [hu.frame]; exact hs) hfitu hc hx hph
    exact ⟨nf, p, d, fb, xs, hstep.of_fetched hu⟩

end Sys2Proof.Machine
end

section
/-! The invariant between steps (R73): reset, the header step and the code step lead to states that meet it. -/

namespace Sys2Proof.Machine

/-! ## The code step, one part of the invariant at a time -/

theorem CodeEnd.phase_ne_header {s t : State} (hp : s.phase.readsCode = true) (h : CodeEnd s t) : t.phase ≠ .header := by
  have hs : s.phase ≠ .header := ((Phase.readsCode_iff _).1 hp).1
  cases h with
  | sourceError hf | endStream hf | literal _ _ hf | corrupt _ _ _ _ hf => rw [hf]; simp
  | clear _ _ _ ho =>
    rcases ho with ⟨hph, _⟩ | ⟨_, _, hph, _⟩ <;> rw [hph] <;> decide
  | steady _ _ _ _ _ _ _ _ _ _ he =>
    rcases he with ⟨hph, _⟩ | ⟨_, _, hph, _⟩ <;> rw [hph]
    · exact hs
    · decide

/-- The table is written, if at all, at a code with storage (R31, R69). -/
theorem CodeEnd.table_wf {s t : State} (hw : s.table.wf = true) (h : CodeEnd s t) : t.table.wf = true := by
  cases h with
  | sourceError hf | endStream hf | literal _ _ hf | corrupt _ _ _ _ hf | clear _ _ hf => rw [hf]; exact hw
  | steady _ nf p _ fb _ _ _ hst hf =>
    rw [hf]
    change (learnedTable s nf p fb).wf = true
    unfold learnedTable
    split
    · next hlt => exact Memory.wf_write _ _ _ hw (hst hlt)
    · exact hw

/-- The buffer's shape and `pos mod 8 = bit_off` (R22, R23). -/
theorem codeStep_buffer {s t : State} (h : CodeStep s t) (hB : BufferOk s) : BufferOk t := by
  cases h with
  | sourceError u hu _ ht => rw [ht]; exact hu.buffer hB
  | endStream u v hu _ hv ht => injection hv with hv; rw [ht, ← hv]; exact hu.buffer hB
  | code u v c i hu _ hc hx ht =>
    have hBu : BufferOk u := hu.buffer hB
    suffices hBv : BufferOk v by rw [ht]; exact hBv
    cases codeRow_of_exec hc hx with
    | literal x _ hv => rw [hv]; exact hBu
    | corrupt st d _ _ hv => rw [hv]; exact hBu
    | clear _ _ hv =>
      rcases execClr_cases u with ⟨_, he⟩ | ⟨_, a, w, hk, ⟨_, he⟩ | ⟨_, he⟩⟩ <;> rw [he] at hv <;> injection hv with hv <;>
        rw [← hv]
      · exact hBu
      · exact hk.buffer hBu
      · exact hk.buffer hBu
    | steady d _ hv =>
      rcases hv with ⟨_, _, _, _, _, _, _, _, _, hb⟩ | ⟨d, hv⟩
      · exact hb hBu
      · rw [hv]; exact hBu

/-- The source's `Err` stops the engine (R36, R102). -/
theorem codeStep_source {s t : State} (h : CodeStep s t) (he : t.src = .err) : s.src = .err ∨ t.phase = .fault := by
  cases h with
  | sourceError u _ _ ht => right; rw [ht]; rfl
  | endStream u v _ hs hv ht =>
    injection hv with hv
    rw [ht, ← hv] at he
    exact absurd (hs.symm.trans he) (by decide)
  | code u v c i hu _ hc hx ht =>
    have hsrc : u.src = s.src := by rw [hu.frame]
    rw [ht, dropWork_src] at he
    rw [ht, dropWork_phase, ← hsrc]
    cases codeRow_of_exec hc hx with
    | literal x _ hv => rw [hv] at he; exact .inl he
    | corrupt st d _ _ hv => right; rw [hv]; rfl
    | clear _ _ hv =>
      rcases execClr_cases u with ⟨_, hclr⟩ | ⟨_, a, w, hk, ⟨ha, hclr⟩ | ⟨_, hclr⟩⟩ <;> rw [hclr] at hv <;>
        injection hv with hv <;> subst hv
      · exact .inl he
      · cases a with
        | ok => exact .inl ((hk.ok rfl).2.symm.trans he)
        | eos => exact absurd ((hk.eos rfl).1.symm.trans he) (by decide)
        | err => exact absurd rfl ha
      · exact .inr rfl
    | steady d _ hv =>
      rcases hv with ⟨_, _, _, _, _, _, _, _, hT, _⟩ | ⟨d, hv⟩
      · rcases hT.outcome with ⟨_, _, _, hsame | heos⟩ | ⟨_, _, _, _, hfault, _⟩
        · exact .inl (hsame.symm.trans he)
        · exact absurd (heos.symm.trans he) (by decide)
        · exact .inr hfault
      · right; rw [hv]; rfl

/-- `phase`, `status`, `warn_trunc` and the latches agree after a code step (R20, R21, R25). -/
theorem CodeEnd.statusOk {s t : State} (hp : s.phase.readsCode = true) (hS : StatusOk s) (h : CodeEnd s t) :
    StatusOk t := by
  obtain ⟨_, hd, hf⟩ := (Phase.readsCode_iff _).1 hp
  obtain ⟨hrun, hwarn, hcode, hpos⟩ := hS.running hd hf
  have running (hph : t.phase.readsCode = true) (hst : t.status = s.status) :
      (t.phase ≠ .done ∧ t.phase ≠ .fault ∧ t.status = .running) :=
    ⟨((Phase.readsCode_iff _).1 hph).2.1, ((Phase.readsCode_iff _).1 hph).2.2, hst.trans hrun⟩
  have sourceIo (hph : t.phase = .fault) (hst : t.status = .errSourceIo) :
      (t.phase = .fault ∧ t.status.fatal = true ∧ ¬ t.status.corrupt) :=
    ⟨hph, by rw [hst]; decide, by simp [hst, Status.corrupt]⟩
  cases h with
  | sourceError hf =>
    rw [hf]
    exact statusOk_of_no_latch hwarn hcode hpos (.inr ⟨rfl, rfl, by simp [Status.corrupt]⟩)
  | endStream hf hw =>
    have hph : t.phase = .done := by rw [hf]
    have hc : t.faultCode = none := (congrArg State.faultCode hf).trans hcode
    have hfp : t.faultPos = none := (congrArg State.faultPos hf).trans hpos
    rcases hw with ⟨hw, hst⟩ | ⟨hw, hst⟩ <;>
      simp [StatusOk, hph, hst, hw, hc, hfp, Status.finished, Status.fatal, Status.corrupt, statusBits]
  | literal _ _ hf =>
    rw [hf]
    exact statusOk_of_no_latch hwarn hcode hpos (.inl ⟨nofun, nofun, hrun⟩)
  | corrupt st c hst _ hf =>
    rw [hf]
    exact statusOk_of_fault rfl (Status.fatal_of_corrupt hst) hwarn (by simp [hst]) (by simp [hst])
  | clear _ _ hf ho =>
    refine statusOk_of_no_latch ((congrArg State.warnTrunc hf).trans hwarn) ((congrArg State.faultCode hf).trans hcode)
      ((congrArg State.faultPos hf).trans hpos) ?_
    rcases ho with ⟨hph, hst, _⟩ | ⟨_, _, hph, hst, _⟩
    · exact .inl (running (by rw [hph]; rfl) hst)
    · exact .inr (sourceIo hph hst)
  | steady _ _ _ _ _ _ _ _ _ hf he =>
    refine statusOk_of_no_latch ((congrArg State.warnTrunc hf).trans hwarn) ((congrArg State.faultCode hf).trans hcode)
      ((congrArg State.faultPos hf).trans hpos) ?_
    rcases he with ⟨hph, hst⟩ | ⟨_, _, hph, hst, _⟩
    · exact .inl (running (by rw [hph]; exact hp) hst)
    · exact .inr (sourceIo hph hst)

/-- The stack is empty again, and the working values are dropped (R26, R27). -/
theorem codeStep_workIdle {s t : State} (hC : CodeOk s) (hs : s.stack = []) (h : CodeStep s t) : WorkIdle t := by
  cases codeEnd_of_codeStep h with
  | sourceError hf | corrupt _ _ _ _ hf => rw [hf]; exact ⟨rfl, rfl, rfl, rfl⟩
  | endStream hf | literal _ _ hf => rw [hf]; exact ⟨hs, rfl, rfl, rfl⟩
  | clear _ _ hf ho =>
    refine ⟨?_, congrArg State.h0 hf, congrArg State.h1 hf, congrArg State.p0 hf⟩
    rcases ho with ⟨_, _, hst⟩ | ⟨_, _, _, _, hst⟩
    · exact hst.trans hs
    · exact hst
  | steady _ _ _ _ _ hph _ _ _ hf he =>
    refine ⟨?_, congrArg State.h0 hf, congrArg State.h1 hf, congrArg State.p0 hf⟩
    rcases he with ⟨hpt, _⟩ | ⟨_, _, _, _, hst⟩
    · obtain ⟨_, _, _, _, _, hstep⟩ := codeStep_steadyStep hC hph hs h (hpt.trans hph)
      exact hstep.stack
    · exact hst

/-! ## What holds in a phase in which codes are read -/

/-- FIRST and PLIT (R79, R82). -/
theorem codeOk_of_literal {s t : State} {x : Byte} (hC : CodeOk s)
    (hf : t = { reread s t with
      out := s.out ++ [x], oldcode := some x.toCode, finchar := some x, phase := .steady }) : CodeOk t := by
  obtain ⟨nf, hn, hw, ht, _⟩ := hC
  have hl := isLiteral_toCode x
  rw [hf]
  exact ⟨nf, hn, hw, ht, x.toCode, x, rfl, rfl, by simp [valid, hl],
    by simp [firstByte, expand_literal _ hl, low_toCode]⟩

/-- The start of a stream and CLR begin with no learned code at the least width (R64, R70, R77, R81). -/
theorem codeOk_of_fresh {t : State} (hn : t.nextFree = some (Config.firstFree t.blockMode)) (hb : t.nBits = 9#5)
    (hlo : 9 ≤ t.maxBits.toNat) (hhi : t.maxBits.toNat ≤ 16) (ho : t.oldcode = none) (hf : t.finchar = none)
    (hph : t.phase = .awaitFirst ∨ (t.phase = .cleared ∧ t.blockMode = true)) : CodeOk t := by
  refine ⟨_, hn, widthOk_firstFree hb hlo hhi, tableOk_firstFree _ _, ?_⟩
  rcases hph with hph | ⟨hph, hbm⟩
  · simp only [PhaseOk, hph]
    exact ⟨ho, hf, hb, trivial⟩
  · simp only [PhaseOk, hph]
    exact ⟨hbm, ho, hf, hb, by rw [hbm]; rfl⟩

/-- LIT, REF and KWK (R84 to R86): TAIL has kept the table, the width, `oldcode` and `finchar` (R88, R89). -/
theorem codeOk_of_steadyStep {s t : State} {nf : BitVec 17} {p c : Code} {fb : Byte} {xs : List Byte} (hC : CodeOk s)
    (hp : s.phase = .steady) (hm : t.maxBits = s.maxBits) (hb : t.blockMode = s.blockMode) (hph : t.phase = .steady)
    (h : SteadyStep s t nf p c fb xs) : CodeOk t := by
  obtain ⟨nf', hn, hw, ht, hphase⟩ := hC
  obtain rfl : nf' = nf := Option.some.inj (hn.symm.trans h.old_nextFree)
  simp only [PhaseOk, hp] at hphase
  obtain ⟨oc, _, ho, _, hvo, _⟩ := hphase
  obtain rfl : oc = p := Option.some.inj (ho.symm.trans h.old_oldcode)
  refine ⟨_, h.nextFree, widthOk_learned hw hm hb h.nBits, ?_, ?_⟩
  · rw [hb, h.table]
    exact tableOk_learned fb hw ht hvo
  · simp only [PhaseOk, hph]
    exact ⟨c, fb, h.oldcode, h.finchar, by rw [hb]; exact h.valid, by simp [firstByte, h.expansion]⟩

theorem codeStep_codeOk {s t : State} (hC : CodeOk s) (hs : s.stack = []) (h : CodeStep s t)
    (hpt : t.phase.readsCode = true) : CodeOk t := by
  have hE := codeEnd_of_codeStep h
  obtain ⟨hm, hb⟩ := hE.maxBits_blockMode
  have hnf : t.phase ≠ .fault := ((Phase.readsCode_iff _).1 hpt).2.2
  cases hE with
  | sourceError hf | corrupt _ _ _ _ hf => exact absurd (by rw [hf]) hnf
  | endStream hf => rw [hf] at hpt; cases hpt
  | literal _ _ hf => exact codeOk_of_literal hC hf
  | clear hbm _ hf ho =>
    obtain ⟨nf, _, ⟨hlo, hle, hhi, _⟩, _⟩ := hC
    have hpc : t.phase = .cleared := by
      rcases ho with ⟨hpc, _⟩ | ⟨_, _, hpf, _⟩
      · exact hpc
      · exact absurd hpf hnf
    have hbt : t.blockMode = true := hb.trans hbm
    exact codeOk_of_fresh (by rw [hbt]; exact congrArg State.nextFree hf) (congrArg State.nBits hf)
      (by rw [hm]; exact Nat.le_trans hlo hle) (by rw [hm]; exact hhi) (congrArg State.oldcode hf)
      (congrArg State.finchar hf) (.inr ⟨hpc, hbt⟩)
  | steady _ _ _ _ _ hph _ _ _ _ he =>
    have hps : t.phase = .steady := by
      rcases he with ⟨hps, _⟩ | ⟨_, _, hpf, _⟩
      · exact hps.trans hph
      · exact absurd hpf hnf
    obtain ⟨_, _, _, _, _, hstep⟩ := codeStep_steadyStep hC hph hs h hps
    exact codeOk_of_steadyStep hC hph hm hb hps hstep

/-- `REALIGN` is constant for a run (R8). -/
theorem CodeEnd.realign {s t : State} (h : CodeEnd s t) : t.realign = s.realign := by
  cases h with
  | sourceError hf | endStream hf | literal _ _ hf | corrupt _ _ _ _ hf | clear _ _ hf
  | steady _ _ _ _ _ _ _ _ _ hf => rw [hf]; rfl

/-! ## The invariant -/

theorem inv_of_codeStep {s t : State} (hI : Inv s) (hp : s.phase.readsCode = true) (h : CodeStep s t) : Inv t := by
  obtain ⟨hwf, ⟨hstack, _⟩, hbuf, hgrp, hsrc, hstat, _, hcode⟩ := hI
  have hE := codeEnd_of_codeStep h
  have hC := hcode hp
  refine ⟨hE.table_wf hwf, codeStep_workIdle hC hstack h, codeStep_buffer h hbuf, fun hr => ?_, fun he => ?_,
    hE.statusOk hp hstat, fun hh => absurd hh (hE.phase_ne_header hp), codeStep_codeOk hC hstack h⟩
  · rw [hE.realign] at hr
    exact (codeStep_group h hr).trans (hgrp hr)
  · rcases codeStep_source h he with hs | hf
    · exact absurd (hsrc hs) ((Phase.readsCode_iff _).1 hp).2.2
    · exact hf

theorem inv_of_headerEnd {s u : State} (hI : Inv s) (hp : s.phase = .header) (h : HeaderEnd s u) : Inv (dropWork u) := by
  obtain ⟨hwf, ⟨hstack, _⟩, hbuf, hgrp, hsrc, hstat, _, _⟩ := hI
  obtain ⟨hrun, hwarn, hfc, hfp⟩ := hstat.running (by simp [hp]) (by simp [hp])
  cases h with
  | rejected st hst hc hf =>
    rw [hf]
    refine ⟨hwf, ⟨rfl, rfl, rfl, rfl⟩, hbuf, hgrp, fun _ => rfl, ?_, nofun, nofun⟩
    exact statusOk_of_no_latch hwarn hfc hfp (.inr ⟨rfl, hst, hc⟩)
  | accepted hlo hhi hs hf =>
    have hsu : u.src ≠ .err := fun he => by
      have := hsrc (hs ▸ he)
      rw [hp] at this
      cases this
    rw [hf]
    exact ⟨hwf, ⟨hstack, rfl, rfl, rfl⟩, ⟨Nat.zero_le _, fun _ => rfl, rfl⟩, fun _ => rfl, fun he => absurd he hsu,
      statusOk_of_no_latch hwarn hfc hfp (.inl ⟨nofun, nofun, hrun⟩), nofun,
      fun _ => codeOk_of_fresh rfl rfl hlo hhi rfl rfl (.inl rfl)⟩

/-- Settles O38: in HEADER, with nothing read, latched or learned, no part of the invariant speaks of the environment. -/
theorem resetMeetsInvariant : Obligations.ResetMeetsInvariant := by
  intro r line bytes e n emitted
  refine ⟨rfl, ⟨rfl, rfl, rfl, rfl⟩, ⟨Nat.zero_le _, fun _ => rfl, rfl⟩, fun _ => rfl, fun h => ?_, ?_,
    fun _ => ⟨rfl, rfl, rfl, rfl, rfl, rfl⟩, fun h => ?_⟩
  · cases h
  · exact statusOk_of_no_latch rfl rfl rfl (.inl ⟨nofun, nofun, rfl⟩)
  · cases h

/-- Settles O39: a step is a reset, the whole header, a terminal phase's, which changes nothing, or a code's, and each keeps
the invariant. -/
theorem stepKeepsInvariant : Obligations.StepKeepsInvariant := by
  intro s t hI h
  rcases step_phase_cases h with ⟨_, rfl⟩ | ⟨_, ⟨hp, hhdr⟩ | ⟨_, rfl⟩ | ⟨hp, hcode⟩⟩
  · exact resetMeetsInvariant s.realign s.rst s.input s.term s.requests s.out
  · obtain ⟨u, hu, rfl⟩ := hdrStep_end hp hhdr
    exact inv_of_headerEnd hI hp hu
  · exact hI
  · exact inv_of_codeStep hI hp hcode

end Sys2Proof.Machine
end

section
/-! The cursor, the width, the corrupt code, the reset values and the ports (R14, R19 to R22, R25, R28, R29, R102). -/

namespace Sys2Proof.Machine

theorem CodeEnd.pos_le {s t : State} (h : CodeEnd s t) : s.pos ≤ t.pos := by
  cases h with
  | sourceError _ _ hp | endStream _ _ hp => exact Nat.le_of_eq hp.symm
  | literal _ _ _ _ hp | corrupt _ _ _ _ _ _ hp => exact hp ▸ Nat.le_add_right ..
  | clear _ _ _ _ hp | steady _ _ _ _ _ _ _ _ _ _ _ hp => exact Nat.le_trans (Nat.le_add_right ..) hp

/-- Settles O42: a terminal phase's step changes nothing, and every end of a code step stands at or after the place where
the code's read began. -/
theorem cursorNeverMovesBack : Obligations.CursorNeverMovesBack := by
  intro s t hr hp h
  rcases step_phase_cases h with ⟨hrst, _⟩ | ⟨_, ⟨hhdr, _⟩ | ⟨_, rfl⟩ | ⟨_, hcode⟩⟩
  · simp [hr] at hrst
  · exact absurd hhdr hp
  · exact Nat.le_refl _
  · exact (codeEnd_of_codeStep hcode).pos_le

/-- Settles O45: only CLR and GROW write the width, and GROW does so below `max_bits`, where one more does not wrap. -/
theorem widthGrowsByOneOrIsCleared : Obligations.WidthGrowsByOneOrIsCleared := by
  intro s t hr hp h
  cases codeEnd_of_codeStep (codeStep_cases hr hp h) with
  | sourceError hf | endStream hf | literal _ _ hf | corrupt _ _ _ _ hf => left; rw [hf]; rfl
  | clear hb _ hf => right; right; rw [hf]; exact ⟨hb, rfl, rfl, rfl, rfl⟩
  | steady _ nf _ _ _ _ _ _ _ hf =>
    have hn : t.nBits = if grows s nf = true then s.nBits + 1#5 else s.nBits := by rw [hf]
    rw [hn]
    by_cases hg : grows s nf = true
    · rw [if_pos hg]
      exact .inr (.inl (nBits_succ_toNat ((grows_iff s nf).1 hg).2))
    · rw [if_neg hg]
      exact .inl rfl

/-- Settles O50: from RUNNING, the one end of a code step with a CorruptStreamError status is the exception itself, which
writes `status`, the latches, `sp` and the phase only. -/
theorem corruptStreamIsPrecise : Obligations.CorruptStreamIsPrecise := by
  intro s t hr hp hrun h hcor
  have hsame : t.status ≠ s.status := fun he => by
    rw [he, hrun] at hcor
    simp [Status.corrupt] at hcor
  have hio : t.status ≠ .errSourceIo := fun he => by
    rw [he] at hcor
    simp [Status.corrupt] at hcor
  cases codeEnd_of_codeStep (codeStep_cases hr hp h) with
  | sourceError hf => exact absurd (by rw [hf]) hio
  | endStream _ hw => rcases hw with ⟨_, hst⟩ | ⟨_, hst⟩ <;> simp [hst, Status.corrupt] at hcor
  | literal _ _ hf => exact absurd (by rw [hf]; rfl) hsame
  | corrupt _ c _ _ hf => rw [hf]; exact ⟨rfl, rfl, rfl, ⟨c, rfl⟩, rfl, rfl, rfl, rfl, rfl, rfl⟩
  | clear _ _ _ ho =>
    rcases ho with ⟨_, hst, _⟩ | ⟨_, _, _, hst, _⟩
    · exact absurd hst hsame
    · exact absurd hst hio
  | steady _ _ _ _ _ _ _ _ _ _ he =>
    rcases he with ⟨_, hst⟩ | ⟨_, _, _, hst, _⟩
    · exact absurd hst hsame
    · exact absurd hst hio

/-- Settles O1: the reset state is a fixed state. -/
theorem resetRegisterValues : Obligations.ResetRegisterValues :=
  ⟨rfl, rfl, rfl, rfl, rfl, rfl, rfl, rfl, rfl, rfl, rfl, rfl, rfl, rfl, rfl, rfl, rfl⟩

theorem ofBool_eq_ite (b : Bool) : BitVec.ofBool b = if b then 1#1 else 0#1 := by
  cases b <;> rfl

/-- Bit 3 of the encoding is set exactly for the fatal outcomes (R20). -/
theorem statusBits_bit3 (st : Status) :
    (statusBits st).getLsbD 3 = true ↔ st ≠ .running ∧ st ≠ .doneOk ∧ st ≠ .doneTruncated := by
  cases st <;> decide

/-- Settles O53: each port is its register or that register's encoding, by definition; the rest is the shape of the
1-bit ports and of the status encoding. -/
theorem portsShowRegisters : Obligations.PortsShowRegisters := fun _ =>
  ⟨rfl, rfl, rfl, rfl, rfl, rfl, ofBool_eq_ite _, ofBool_eq_ite _, rfl, rfl, rfl, statusBits_bit3 _⟩

end Sys2Proof.Machine
end

section
/-! The streams and the stack (R34 to R38, R58): what the source answers, which bytes a code read takes, Push and Pop. -/

namespace Sys2Proof.Machine

/-! ## The bytes a code read takes -/

@[simp] theorem countCode_input (s : State) : (countCode s).input = s.input := by
  unfold countCode
  split <;> rfl

@[simp] theorem countCode_requests (s : State) : (countCode s).requests = s.requests := by
  unfold countCode
  split <;> rfl

/-- `READ_CODE` deals with the source in its fetch loop alone; the loop's answer tells which of the three it gives (R58). -/
theorem readCode_fill {w : Nat} {s t : State} {a : ReadAns} (hw : w ≤ 16) (h : readCode w s = .ok a t) :
    ∃ b u taken, FillResult w s b u taken ∧ t.input = u.input ∧ t.requests = u.requests ∧
      ((b = .ok ∧ ∃ v, a = .code v) ∨ (b = .eos ∧ a = .eos) ∨ (b = .err ∧ a = .err)) := by
  obtain ⟨b, u, taken, hf, hc⟩ := readCode_cases w s hw
  refine ⟨b, u, taken, hf, ?_⟩
  rcases hc with ⟨hb, hc⟩ | ⟨hb, hc⟩ | ⟨hb, hc⟩ <;> rw [hc] at h <;> injection h with ha ht <;> subst ht
  · exact ⟨by simp, by simp, .inl ⟨hb, _, ha.symm⟩⟩
  · exact ⟨rfl, rfl, .inr (.inl ⟨hb, ha.symm⟩)⟩
  · exact ⟨rfl, rfl, .inr (.inr ⟨hb, ha.symm⟩)⟩

/-- A read of at most 16 bits takes at most two bytes: before a third, two taken bytes would have filled it (R58 (c)). -/
theorem FillResult.taken_length_le {w : Nat} {s t : State} {a : FetchAns} {taken : List Byte}
    (h : FillResult w s a t taken) (hw : w ≤ 16) (h0 : s.buf = [] → s.bitOff = 0#3) : taken.length ≤ 2 := by
  rcases h.needed h0 with hnil | hlt
  · simp [hnil]
  · omega

/-- Settles O31: the fetch loop takes a byte only while it is short of bits, so two bytes at most, and asks for the
terminator at most once. -/
theorem readCodeFetchesOnDemand : Obligations.ReadCodeFetchesOnDemand := by
  intro w s t a _ hw h0 h
  obtain ⟨b, u, taken, hf, hin, hreq, hans⟩ := readCode_fill hw h
  have hlen := hf.taken_length_le hw h0
  refine ⟨taken, by rw [hin]; exact hf.taken_input, hf.needed h0, ?_⟩
  rw [hreq]
  rcases hans with ⟨hb, v, rfl⟩ | ⟨hb, rfl⟩ | ⟨hb, rfl⟩
  · obtain ⟨_, _, hr⟩ := hf.ok hb
    simp [hr]
    omega
  · obtain ⟨_, _, _, _, hr⟩ := hf.eos hb
    by_cases hs : s.src = .eos <;> simp [hr, hs] <;> omega
  · obtain ⟨_, _, _, _, _, hr⟩ := hf.err hb
    simp [hr]
    omega

/-! ## The source's answers -/

/-- Settles O24: the four answers are the branches of `SrcNext`: sticky end, next byte, and the two terminators. -/
theorem sourceAnswersInOrder : Obligations.SourceAnswersInOrder := by
  intro s
  refine ⟨fun he => ?_, fun b rest ho hi => ?_, fun ho hi ht => ?_, fun ho hi ht => ?_⟩
  · simp only [srcNext, he, if_true]
  · simp only [srcNext, ho, hi, if_false]
  · simp only [srcNext, ho, hi, ht, if_false]
  · simp only [srcNext, ho, hi, ht, if_false]

/-- Settles O25: the pins are tested in the order of their priority, and the later ones then play no part. -/
theorem sourcePinPriority : Obligations.SourcePinPriority := fun _ _ _ => ⟨rfl, rfl, rfl, rfl⟩

/-! ## The stack -/

theorem pop_cons (b : Byte) (s : State) : pop { s with stack := b :: s.stack } = some (b, s) := rfl

/-- Settles O26: `Push` with room puts the byte where `Pop` takes it from, and raises without room. -/
theorem stackIsLastInFirstOut : Obligations.StackIsLastInFirstOut := fun cur b s =>
  ⟨fun h => ⟨_, push_ok cur b h, rfl, pop_cons b s⟩, push_full cur b⟩

end Sys2Proof.Machine
end

section
/-! What a step does to the output, and a code step to the cursor and the table (R22, R31, R33, R38, R69, R94). -/

namespace Sys2Proof.Machine

/-! ## The output -/

/-- No item of the header emits (R75 to R77). -/
theorem HeaderEnd.out {s t : State} (h : HeaderEnd s t) : t.out = s.out := by
  cases h with
  | rejected _ _ _ hf | accepted _ _ _ hf => rw [hf]; rfl

/-- Only the literals, REF and KWK emit (R79, R82, R84 to R86); an exception takes nothing back (R102). -/
theorem CodeEnd.out_append {s t : State} (h : CodeEnd s t) : ∃ bytes, t.out = s.out ++ bytes := by
  cases h with
  | sourceError hf | endStream hf | corrupt _ _ _ _ hf | clear _ _ hf =>
    exact ⟨[], by rw [hf, List.append_nil]; rfl⟩
  | literal x _ hf => exact ⟨[x], by rw [hf]⟩
  | steady bytes _ _ _ _ _ _ _ _ hf => exact ⟨bytes, by rw [hf]⟩

/-- Settles O41: reset, the header and a terminal phase's step leave the output, and every end of a code step appends. -/
theorem outputIsAppendOnly : Obligations.OutputIsAppendOnly := by
  intro s t h
  have unchanged {u : State} (hu : u.out = s.out) : ∃ bytes, u.out = s.out ++ bytes := ⟨[], by simp [hu]⟩
  rcases step_phase_cases h with ⟨_, rfl⟩ | ⟨_, ⟨hp, hhdr⟩ | ⟨_, rfl⟩ | ⟨_, hcode⟩⟩
  · exact unchanged rfl
  · obtain ⟨u, hu, rfl⟩ := hdrStep_end hp hhdr
    exact unchanged hu.out
  · exact unchanged rfl
  · exact (codeEnd_of_codeStep hcode).out_append

/-! ## The cursor -/

/-- Settles O43: the two ends without a code leave the cursor; every other end has read one, and without a realignment
nothing else moves the cursor. -/
theorem cursorMovesByCodeWidth : Obligations.CursorMovesByCodeWidth := by
  intro s t hr hp hnone h
  cases codeEnd_of_codeStep (codeStep_cases hr hp h) with
  | sourceError hf _ hpos => exact .inr ⟨hpos, .inr (by rw [hf])⟩
  | endStream hf _ hpos => exact .inr ⟨hpos, .inl (by rw [hf])⟩
  | literal _ _ _ _ hpos | corrupt _ _ _ _ _ _ hpos => exact .inl hpos
  | clear _ _ _ _ _ hn | steady _ _ _ _ _ _ _ _ _ _ _ _ hn => exact .inl (hn hnone).1

/-! ## The table -/

/-- Below capacity LEARN writes at `next_free` and moves it on; at capacity the table stays (R69). -/
theorem learnedTable_cases (s : State) (nf : BitVec 17) (p : Code) (b : Byte) :
    learnedTable s nf p b = s.table ∨
      (learnedNext s nf = nf + 1#17 ∧ learnedTable s nf p b = s.table.write nf.toNat { pfx := p, sfx := b }) := by
  unfold learnedTable learnedNext
  split
  · exact .inr ⟨rfl, rfl⟩
  · exact .inl rfl

theorem read_learnedTable_other (s : State) {nf : BitVec 17} (p : Code) (b : Byte) {c : Nat} (h : nf.toNat ≠ c) :
    (learnedTable s nf p b).read c = s.table.read c := by
  rcases learnedTable_cases s nf p b with he | ⟨_, he⟩ <;> rw [he]
  exact Memory.read_write_other _ _ h.symm

/-- Settles O46: LIT, REF and KWK alone touch the table, by LEARN; CLR moves `next_free` and erases nothing. -/
theorem tableIsWrittenOnlyAtNextFree : Obligations.TableIsWrittenOnlyAtNextFree := by
  intro s t hr hp h
  cases codeEnd_of_codeStep (codeStep_cases hr hp h) with
  | sourceError hf | endStream hf | literal _ _ hf | corrupt _ _ _ _ hf | clear _ _ hf =>
    have ht : t.table = s.table := by rw [hf]; rfl
    exact ⟨.inl ht, fun c _ => by rw [ht]⟩
  | steady _ nf p _ fb _ ho hn _ hf =>
    have htab : t.table = learnedTable s nf p fb := by rw [hf]
    have hnext : t.nextFree = some (learnedNext s nf) := by rw [hf]
    have hfin : t.finchar = some fb := by rw [hf]
    rw [htab, hnext]
    refine ⟨?_, fun c hc => read_learnedTable_other s p fb (hc nf hn)⟩
    rcases learnedTable_cases s nf p fb with he | ⟨hstep, he⟩
    · exact .inl he
    · exact .inr ⟨nf, p, fb, hn, ho, hfin, by rw [hstep], he⟩

end Sys2Proof.Machine
end

section
/-! The classification of a code (R51, R73): one equation per row and phase, what each phase can answer, and how the
answers meet the condition column of the opcode table. -/

namespace Sys2Proof.Machine

variable {ctx : DecodeCtx} {b : Bool} {nf : BitVec 17} {c : Code} {i : Instr}

/-! ## The CLEAR code -/

theorem isClear_iff : isClear b c = true ↔ b = true ∧ c.toNat = 256 := by
  rw [isClear, Bool.and_eq_true, decide_eq_true_iff, BitVec.toNat_inj.symm]
  rfl

theorem isClear_eq_false_of_ne (h : c.toNat ≠ 256) : isClear b c = false :=
  Bool.eq_false_iff.2 fun hc => h (isClear_iff.1 hc).2

theorem isClear_eq_false_of_firstFree_le (h : (Config.firstFree b).toNat ≤ c.toNat) : isClear b c = false := by
  refine Bool.eq_false_iff.2 fun hc => ?_
  obtain ⟨rfl, h256⟩ := isClear_iff.1 hc
  have : (Config.firstFree true).toNat = 257 := rfl
  omega

/-! ## The rows of each phase -/

theorem classify_awaitFirst (h : ctx.phase = .awaitFirst) : classify ctx c = classifyFirst c := by
  simp only [classify, h]

theorem classify_steady (h : ctx.phase = .steady) :
    classify ctx c = classifySteady ctx.blockMode ctx.nextFree c := by
  simp only [classify, h]

theorem classify_cleared (h : ctx.phase = .cleared) : classify ctx c = classifyCleared ctx.blockMode c := by
  simp only [classify, h]

theorem classifyFirst_literal (h : c.toNat < 256) : classifyFirst c = .ok (.first c.low) := if_pos h

theorem classifyFirst_badFirst (h : 256 ≤ c.toNat) : classifyFirst c = .ok (.badFirst c) := if_neg (not_lt.2 h)

theorem classifyCleared_clear (h : isClear b c = true) : classifyCleared b c = .ok .clr := if_pos h

theorem classifyCleared_literal (h : c.toNat < 256) : classifyCleared b c = .ok (.plit c.low) := by
  simp [classifyCleared, Config.nLiterals, isClear_eq_false_of_ne h.ne, h]

theorem classifyCleared_badPclr (h : 257 ≤ c.toNat) : classifyCleared b c = .ok (.badPclr c) := by
  have hne : c ≠ Config.clearCode := fun hc => absurd (hc ▸ h) (by decide)
  have hlit : ¬ c.toNat < 256 := by omega
  simp [classifyCleared, Config.nLiterals, isClear_eq_false_of_ne (b := b) (c := c) (by omega), hlit, hne]

theorem classifySteady_clear {n : Option (BitVec 17)} (h : isClear b c = true) : classifySteady b n c = .ok .clr :=
  if_pos h

theorem classifySteady_literal {n : Option (BitVec 17)} (h : c.toNat < 256) :
    classifySteady b n c = .ok (.lit c.low) := by
  simp [classifySteady, Config.nLiterals, isClear_eq_false_of_ne h.ne, h]

/-- From FIRST_FREE up a code in `STEADY` is compared with `next_free` alone (R51). -/
theorem classifySteady_of_firstFree_le (h : (Config.firstFree b).toNat ≤ c.toNat) :
    classifySteady b (some nf) c =
      if c.toNat < nf.toNat then .ok (.ref c) else if c.toNat = nf.toNat then .ok (.kwk c) else .ok (.badRange c) := by
  have hlit : ¬ c.toNat < 256 := by have := (firstFree_bounds b).1; omega
  simp [classifySteady, Config.nLiterals, isClear_eq_false_of_firstFree_le h, hlit]

theorem classifySteady_ref (h : (Config.firstFree b).toNat ≤ c.toNat) (hn : c.toNat < nf.toNat) :
    classifySteady b (some nf) c = .ok (.ref c) := by
  rw [classifySteady_of_firstFree_le h, if_pos hn]

theorem classifySteady_kwk (h : (Config.firstFree b).toNat ≤ c.toNat) (hn : c.toNat = nf.toNat) :
    classifySteady b (some nf) c = .ok (.kwk c) := by
  rw [classifySteady_of_firstFree_le h, if_neg hn.not_lt, if_pos hn]

theorem classifySteady_badRange (h : (Config.firstFree b).toNat ≤ c.toNat) (hn : nf.toNat < c.toNat) :
    classifySteady b (some nf) c = .ok (.badRange c) := by
  rw [classifySteady_of_firstFree_le h, if_neg hn.not_gt, if_neg hn.ne']

/-! ## What each phase can answer -/

theorem readsCode_of_classify (h : classify ctx c = .ok i) : ctx.phase.readsCode = true := by
  cases hp : ctx.phase with
  | awaitFirst | steady | cleared => rfl
  | header | done | fault => simp [classify, hp] at h

theorem classifyFirst_ok (h : classifyFirst c = .ok i) :
    (c.toNat < 256 ∧ i = .first c.low) ∨ (256 ≤ c.toNat ∧ i = .badFirst c) := by
  rcases Nat.lt_or_ge c.toNat 256 with hc | hc
  · rw [classifyFirst_literal hc] at h
    exact .inl ⟨hc, (Except.ok.inj h).symm⟩
  · rw [classifyFirst_badFirst hc] at h
    exact .inr ⟨hc, (Except.ok.inj h).symm⟩

/-- Code 256 without block mode has no row in `CLEARED` (log entry 14), so no answer covers it. -/
theorem classifyCleared_ok (h : classifyCleared b c = .ok i) :
    (isClear b c = true ∧ i = .clr) ∨ (c.toNat < 256 ∧ i = .plit c.low) ∨ (257 ≤ c.toNat ∧ i = .badPclr c) := by
  rcases Nat.lt_trichotomy c.toNat 256 with hc | hc | hc
  · rw [classifyCleared_literal hc] at h
    exact .inr (.inl ⟨hc, (Except.ok.inj h).symm⟩)
  · obtain rfl : c = Config.clearCode := BitVec.eq_of_toNat_eq hc
    cases b with
    | false => cases h
    | true => exact .inl ⟨rfl, (Except.ok.inj h).symm⟩
  · rw [classifyCleared_badPclr hc] at h
    exact .inr (.inr ⟨hc, (Except.ok.inj h).symm⟩)

/-! ## The condition column -/

theorem admits_ref_iff : ctx.admits (.ref c) = true ↔ ∃ nf, ctx.nextFree = some nf ∧ ctx.phase = .steady ∧
    (Config.firstFree ctx.blockMode).toNat ≤ c.toNat ∧ c.toNat < nf.toNat ∧ ctx.fits c = true := by
  cases h : ctx.nextFree <;> simp [DecodeCtx.admits, h, and_assoc]

theorem admits_kwk_iff : ctx.admits (.kwk c) = true ↔ ∃ nf, ctx.nextFree = some nf ∧ ctx.phase = .steady ∧
    (Config.firstFree ctx.blockMode).toNat ≤ c.toNat ∧ c.toNat = nf.toNat ∧ ctx.fits c = true := by
  cases h : ctx.nextFree <;> simp [DecodeCtx.admits, h, and_assoc]

theorem admits_badRange_iff : ctx.admits (.badRange c) = true ↔ ∃ nf, ctx.nextFree = some nf ∧ ctx.phase = .steady ∧
    (Config.firstFree ctx.blockMode).toNat ≤ c.toNat ∧ nf.toNat < c.toNat ∧ ctx.fits c = true := by
  cases h : ctx.nextFree <;> simp [DecodeCtx.admits, h, and_assoc]

theorem admits_badFirst_iff : ctx.admits (.badFirst c) = true ↔
    ctx.phase = .awaitFirst ∧ 256 ≤ c.toNat ∧ ctx.fits c = true := by
  simp [DecodeCtx.admits, and_assoc]

theorem admits_badPclr_iff : ctx.admits (.badPclr c) = true ↔
    ctx.phase = .cleared ∧ 257 ≤ c.toNat ∧ ctx.fits c = true := by
  simp [DecodeCtx.admits, and_assoc]

theorem admits_clr_iff : ctx.admits .clr = true ↔
    ctx.blockMode = true ∧ (ctx.phase = .steady ∨ ctx.phase = .cleared) := by
  simp [DecodeCtx.admits]

theorem some_toCode_low (h : c.toNat < 256) : some c.low.toCode = some c :=
  congrArg some (toCode_low ((isLiteral_iff c).2 h))

/-- The row that the classification answers holds in the state, and carries the code. -/
theorem admits_of_classify (hfit : ctx.fits c = true) (h : classify ctx c = .ok i) :
    ctx.admits i = true ∧ i.value = some c := by
  have clear (hc : isClear ctx.blockMode c = true) (hp : ctx.phase = .steady ∨ ctx.phase = .cleared) :
      ctx.admits .clr = true ∧ Instr.clr.value = some c := by
    obtain ⟨hb, h256⟩ := isClear_iff.1 hc
    exact ⟨admits_clr_iff.2 ⟨hb, hp⟩, congrArg some (BitVec.eq_of_toNat_eq h256.symm)⟩
  have hcode := readsCode_of_classify h
  cases hp : ctx.phase with
  | awaitFirst =>
    rw [classify_awaitFirst hp] at h
    rcases classifyFirst_ok h with ⟨hc, rfl⟩ | ⟨hc, rfl⟩
    · exact ⟨decide_eq_true hp, some_toCode_low hc⟩
    · exact ⟨admits_badFirst_iff.2 ⟨hp, hc, hfit⟩, rfl⟩
  | steady =>
    rw [classify_steady hp] at h
    rcases classifySteady_ok h with ⟨rfl, hc⟩ | ⟨_, hc, rfl⟩ | ⟨hnc, hc, nf, hn, hrow⟩
    · exact clear hc (.inl hp)
    · exact ⟨decide_eq_true hp, some_toCode_low hc⟩
    · have hff := firstFree_le_of_not_clear hnc hc
      rcases hrow with ⟨hr, rfl⟩ | ⟨hr, rfl⟩ | ⟨hr, rfl⟩
      · exact ⟨admits_ref_iff.2 ⟨nf, hn, hp, hff, hr, hfit⟩, rfl⟩
      · exact ⟨admits_kwk_iff.2 ⟨nf, hn, hp, hff, hr, hfit⟩, rfl⟩
      · exact ⟨admits_badRange_iff.2 ⟨nf, hn, hp, hff, hr, hfit⟩, rfl⟩
  | cleared =>
    rw [classify_cleared hp] at h
    rcases classifyCleared_ok h with ⟨hc, rfl⟩ | ⟨hc, rfl⟩ | ⟨hc, rfl⟩
    · exact clear hc (.inr hp)
    · exact ⟨decide_eq_true hp, some_toCode_low hc⟩
    · exact ⟨admits_badPclr_iff.2 ⟨hp, hc, hfit⟩, rfl⟩
  | header | done | fault => simp [hp, Phase.readsCode] at hcode

/-- A row whose condition holds is the answer for its code. -/
theorem classify_of_admits (h : ctx.admits i = true) (hv : i.value = some c) : classify ctx c = .ok i := by
  have literal (v : Byte) : v.toCode.toNat < 256 := (isLiteral_iff _).1 (isLiteral_toCode v)
  cases i with
  | hdrM0 | hdrM1 | hdrCtl | endStream => cases hv
  | first v =>
    cases hv
    rw [classify_awaitFirst (of_decide_eq_true h), classifyFirst_literal (literal v), low_toCode]
  | plit v =>
    cases hv
    rw [classify_cleared (of_decide_eq_true h), classifyCleared_literal (literal v), low_toCode]
  | lit v =>
    cases hv
    rw [classify_steady (of_decide_eq_true h), classifySteady_literal (literal v), low_toCode]
  | clr =>
    cases hv
    obtain ⟨hb, hp⟩ := admits_clr_iff.1 h
    have hc : isClear ctx.blockMode Config.clearCode = true := isClear_iff.2 ⟨hb, rfl⟩
    rcases hp with hp | hp
    · rw [classify_steady hp, classifySteady_clear hc]
    · rw [classify_cleared hp, classifyCleared_clear hc]
  | badFirst d =>
    cases hv
    obtain ⟨hp, hc, _⟩ := admits_badFirst_iff.1 h
    rw [classify_awaitFirst hp, classifyFirst_badFirst hc]
  | badPclr d =>
    cases hv
    obtain ⟨hp, hc, _⟩ := admits_badPclr_iff.1 h
    rw [classify_cleared hp, classifyCleared_badPclr hc]
  | ref d =>
    cases hv
    obtain ⟨nf, hn, hp, hff, hr, _⟩ := admits_ref_iff.1 h
    rw [classify_steady hp, hn, classifySteady_ref hff hr]
  | kwk d =>
    cases hv
    obtain ⟨nf, hn, hp, hff, hr, _⟩ := admits_kwk_iff.1 h
    rw [classify_steady hp, hn, classifySteady_kwk hff hr]
  | badRange d =>
    cases hv
    obtain ⟨nf, hn, hp, hff, hr, _⟩ := admits_badRange_iff.1 h
    rw [classify_steady hp, hn, classifySteady_badRange hff hr]

/-- Settles O8: the answered row's condition holds, and a row whose condition holds is answered. -/
theorem classificationIsExact : Obligations.ClassificationIsExact :=
  fun _ _ _ hfit => ⟨admits_of_classify hfit, fun ⟨h, hv⟩ => classify_of_admits h hv⟩

theorem classifyFirst_total (c : Code) : ∃ i, classifyFirst c = .ok i := by
  rcases Nat.lt_or_ge c.toNat 256 with hc | hc
  · exact ⟨_, classifyFirst_literal hc⟩
  · exact ⟨_, classifyFirst_badFirst hc⟩

theorem classifyCleared_total (c : Code) : ∃ i, classifyCleared true c = .ok i := by
  rcases Nat.lt_trichotomy c.toNat 256 with hc | hc | hc
  · exact ⟨_, classifyCleared_literal hc⟩
  · exact ⟨_, classifyCleared_clear (isClear_iff.2 ⟨rfl, hc⟩)⟩
  · exact ⟨_, classifyCleared_badPclr hc⟩

theorem classifySteady_total (b : Bool) (nf : BitVec 17) (c : Code) : ∃ i, classifySteady b (some nf) c = .ok i := by
  rcases hb : isClear b c with _ | _
  · rcases Nat.lt_or_ge c.toNat 256 with hc | hc
    · exact ⟨_, classifySteady_literal hc⟩
    · have hff := firstFree_le_of_not_clear hb hc
      rcases Nat.lt_trichotomy c.toNat nf.toNat with hn | hn | hn
      · exact ⟨_, classifySteady_ref hff hn⟩
      · exact ⟨_, classifySteady_kwk hff hn⟩
      · exact ⟨_, classifySteady_badRange hff hn⟩
  · exact ⟨_, classifySteady_clear hb⟩

/-- Settles O9, phase by phase. -/
theorem classificationIsTotal : Obligations.ClassificationIsTotal := by
  intro ctx c hcode hsteady hcleared
  cases hp : ctx.phase with
  | awaitFirst => rw [classify_awaitFirst hp]; exact classifyFirst_total c
  | steady =>
    obtain ⟨nf, hn⟩ := Option.isSome_iff_exists.1 (hsteady hp)
    rw [classify_steady hp, hn]
    exact classifySteady_total _ nf c
  | cleared => rw [classify_cleared hp, hcleared hp]; exact classifyCleared_total c
  | header | done | fault => simp [hp, Phase.readsCode] at hcode

/-- Settles O15, each phase by its row's equation. -/
theorem corruptCodesClassified : Obligations.CorruptCodesClassified := by
  intro ctx c nf
  refine ⟨fun hp hc => ?_, fun hp hc => ?_, fun hp hn hc hr hclear => ?_⟩
  · rw [classify_awaitFirst hp, classifyFirst_badFirst hc]
  · rw [classify_cleared hp, classifyCleared_badPclr hc]
  · have hnc : isClear ctx.blockMode c = false :=
      Bool.eq_false_iff.2 fun h => hclear ⟨(isClear_iff.1 h).1, BitVec.eq_of_toNat_eq (isClear_iff.1 h).2⟩
    rw [classify_steady hp, hn, classifySteady_badRange (firstFree_le_of_not_clear hnc hc) hr]

end Sys2Proof.Machine
end

section
/-! The bytes of an instruction (R46 to R49, R53, R58): a code laid at the cursor is cut out again unchanged, the control
byte's fields come back, and decoding undoes encoding. -/

namespace Sys2Proof.Machine

variable {ctx : DecodeCtx} {w off : Nat} {c : Code} {i : Instr}

/-! ## The window and a code laid in it -/

/-- Bit `j` of the window is bit `j mod 8` of byte `j / 8` (R39, R58). -/
theorem window_getLsbD (bytes : List Byte) {j : Nat} (hj : j < 24) :
    (window bytes).getLsbD j = (bufByte bytes (j / 8)).getLsbD (j % 8) := by
  have hbyte (k n : Nat) (hn : 8 ≤ n) : (bufByte bytes k).getLsbD n = false := BitVec.getLsbD_of_ge _ _ hn
  have hq : j / 8 = 0 ∧ j % 8 = j ∨ j / 8 = 1 ∧ j % 8 = j - 8 ∨ j / 8 = 2 ∧ j % 8 = j - 16 := by omega
  rcases hq with ⟨hd, hm⟩ | ⟨hd, hm⟩ | ⟨hd, hm⟩ <;>
    simp only [window, BitVec.getLsbD_or, BitVec.getLsbD_shiftLeft, BitVec.getLsbD_setWidth, hd, hm]
  · simp [hj, show j < 8 by omega, show j < 16 by omega]
  · simp [hj, hbyte 0 j (by omega), show ¬ j < 8 by omega, show j < 16 by omega, show j - 8 < 24 by omega]
  · simp [hj, hbyte 0 j (by omega), hbyte 1 (j - 8) (by omega), show ¬ j < 8 by omega, show ¬ j < 16 by omega,
      show j - 16 < 24 by omega]

/-- Bit `k` of the code that is cut out is bit `off + k` of the window, below the width. -/
theorem codeValue_getLsbD (bytes : List Byte) {k : Nat} (hk : k < 16) :
    (codeValue w off bytes).getLsbD k = (decide (k < w) && (window bytes).getLsbD (off + k)) := by
  have hk24 : k < 24 := by omega
  rw [codeValue, BitVec.getLsbD_setWidth, BitVec.getLsbD_and, BitVec.getLsbD_ushiftRight, BitVec.getLsbD_ofNat,
    Nat.testBit_two_pow_sub_one]
  simp [hk, hk24, Bool.and_comm]

theorem packCode_length (hw : w ≤ 16) (ho : off < 8) : (packCode w off c).length = (off + w + 7) / 8 := by
  simp only [packCode, List.length_take, List.length_cons, List.length_nil]
  omega

/-- A code's bytes hold its bits and the bits before it (R49, R62): its read does not find the end. -/
theorem availBits_packCode (hw : w ≤ 16) (ho : off < 8) : w ≤ availBits (packCode w off c) off := by
  rw [availBits, packCode_length hw ho]
  omega

theorem bufByte_packCode {k : Nat} (hk : k < 3) (hw : 8 * k < off + w) :
    bufByte (packCode w off c) k = (c.setWidth 24 <<< off).extractLsb' (8 * k) 8 := by
  have hlt : k < (off + w + 7) / 8 := by omega
  simp only [bufByte, packCode, List.getD_eq_getElem?_getD, List.getElem?_take_of_lt hlt]
  interval_cases k <;> rfl

/-- Bit `k` of a laid code stands at bit `off + k` of the window. -/
theorem window_packCode_getLsbD {k : Nat} (hk : k < w) (hw : w ≤ 16) (ho : off < 8) :
    (window (packCode w off c)).getLsbD (off + k) = c.getLsbD k := by
  have hj : off + k < 24 := by omega
  rw [window_getLsbD _ hj, bufByte_packCode (by omega) (by omega), BitVec.getLsbD_extractLsb', Nat.div_add_mod]
  simp [Nat.mod_lt, hj]

/-- A code of at most `w` bits, laid at a bit offset, is read back (R49, R58). -/
theorem codeValue_packCode (hc : c.toNat < 2 ^ w) (hw : w ≤ 16) (ho : off < 8) :
    codeValue w off (packCode w off c) = c := by
  refine BitVec.eq_of_getLsbD_eq fun k hk => ?_
  rw [codeValue_getLsbD _ hk]
  by_cases hkw : k < w
  · simp [hkw, window_packCode_getLsbD hkw hw ho]
  · have hpow : 2 ^ w ≤ 2 ^ k := Nat.pow_le_pow_right (by decide) (not_lt.1 hkw)
    have hbit : c.getLsbD k = false := Nat.testBit_lt_two_pow (hc.trans_le hpow)
    simp [hkw, hbit]

/-! ## The control byte -/

/-- R48: the three fields of the control byte are read back. -/
theorem decodeCtl_encodeCtl (block : Bool) (rsvd : BitVec 2) (maxbits : BitVec 5) :
    decodeCtl (encodeCtl block rsvd maxbits) = .hdrCtl block rsvd maxbits := by
  revert block rsvd maxbits
  decide

/-! ## Decoding what was encoded -/

theorem widthOk_iff : ctx.widthOk = true ↔ 9 ≤ ctx.nBits.toNat ∧ ctx.nBits.toNat ≤ 16 := by
  simp [DecodeCtx.widthOk, Config.minBitsLimit, Config.maxBitsLimit]

theorem fits_iff : ctx.fits c = true ↔ c.toNat < 2 ^ ctx.nBits.toNat := decide_eq_true_iff

/-- Nine bits hold every literal and CLEAR, so every width does (R14). -/
theorem fits_of_le_clear (hw : ctx.widthOk = true) (hc : c.toNat ≤ 256) : ctx.fits c = true := by
  have hpow : 2 ^ 9 ≤ 2 ^ ctx.nBits.toNat := Nat.pow_le_pow_right (by decide) (widthOk_iff.1 hw).1
  exact fits_iff.2 (by omega)

/-- A code item that the state admits fits the width in force (R49, R51). -/
theorem fits_of_admits (hw : ctx.widthOk = true) (h : ctx.admits i = true) (hv : i.value = some c) :
    ctx.fits c = true := by
  cases i with
  | hdrM0 | hdrM1 | hdrCtl | endStream => cases hv
  | first v | plit v | lit v =>
    cases hv
    exact fits_of_le_clear hw (by rw [toCode_toNat]; exact v.isLt.le)
  | clr =>
    cases hv
    exact fits_of_le_clear hw (le_refl 256)
  | badFirst d | badPclr d =>
    cases hv
    exact (Bool.and_eq_true_iff.1 h).2
  | ref d | kwk d | badRange d =>
    cases hv
    simp only [admits_ref_iff, admits_kwk_iff, admits_badRange_iff] at h
    obtain ⟨_, _, _, _, _, hfit⟩ := h
    exact hfit

theorem encode_of_value (hv : i.value = some c) : encode ctx i = packCode ctx.nBits.toNat ctx.bitOff.toNat c := by
  cases i <;> cases hv <;> rfl

/-- In a phase in which codes are read, a read finds the end of the stream or classifies the code (R58, R62, R78). -/
theorem decode_of_readsCode (hp : ctx.phase.readsCode = true) (hw : ctx.widthOk = true) (bytes : List Byte) :
    decode ctx bytes = if availBits bytes ctx.bitOff.toNat < ctx.nBits.toNat then .ok .endStream
      else classify ctx (codeValue ctx.nBits.toNat ctx.bitOff.toNat bytes) := by
  cases h : ctx.phase with
  | awaitFirst | steady | cleared => simp only [decode, h, hw, if_true]
  | header | done | fault => simp [h, Phase.readsCode] at hp

theorem decode_packCode (hp : ctx.phase.readsCode = true) (hw : ctx.widthOk = true) (hfit : ctx.fits c = true) :
    decode ctx (packCode ctx.nBits.toNat ctx.bitOff.toNat c) = classify ctx c := by
  have h16 := (widthOk_iff.1 hw).2
  have ho := ctx.bitOff.isLt
  rw [decode_of_readsCode hp hw, if_neg (availBits_packCode h16 ho).not_gt,
    codeValue_packCode (fits_iff.1 hfit) h16 ho]

/-- The round trip of an item that is a code. -/
theorem decode_encode_of_value (hw : ctx.widthOk = true) (h : ctx.admits i = true) (hv : i.value = some c) :
    decode ctx (encode ctx i) = .ok i := by
  have hc := classify_of_admits h hv
  rw [encode_of_value hv, decode_packCode (readsCode_of_classify hc) hw (fits_of_admits hw h hv), hc]

/-- The round trip of END: no bytes, so fewer bits than any width (R51, R62). -/
theorem decode_encode_endStream (hw : ctx.widthOk = true) (h : ctx.admits .endStream = true) :
    decode ctx (encode ctx .endStream) = .ok .endStream := by
  have h9 := (widthOk_iff.1 hw).1
  have hshort : availBits [] ctx.bitOff.toNat < ctx.nBits.toNat := by
    rw [availBits, List.length_nil]
    omega
  exact (decode_of_readsCode h hw []).trans (if_pos hshort)

theorem decode_header {p : HdrPos} (h : (decide (ctx.phase = .header) && decide (ctx.hdrPos = p)) = true) (b : Byte) :
    decode ctx [b] = .ok (decodeHeader p b) := by
  obtain ⟨hp, hpos⟩ := Bool.and_eq_true_iff.1 h
  rw [decode, of_decide_eq_true hp, of_decide_eq_true hpos]

/-- Settles O10: the header bytes by their position, END by its missing bits, and a code by being cut out as it was laid
and classified as the row whose condition holds. -/
theorem decodeEncodeRoundTrip : Obligations.DecodeEncodeRoundTrip := by
  intro ctx i hw h
  cases i with
  | hdrM0 b | hdrM1 b => exact decode_header h b
  | hdrCtl block rsvd maxbits =>
    exact (decode_header h _).trans (congrArg Except.ok (decodeCtl_encodeCtl block rsvd maxbits))
  | endStream => exact decode_encode_endStream hw h
  | first | badFirst | clr | plit | badPclr | lit | ref | kwk | badRange => exact decode_encode_of_value hw h rfl

/-- Settles O11, by running the decoder on each word. -/
theorem tableWordsDecode : Obligations.TableWordsDecode := by
  unfold Obligations.TableWordsDecode
  decide

end Sys2Proof.Machine
end

section
/-! The BitReader against the bits of the input (R24, R39, R49, R55 to R62): AVAIL and ADVANCE, the value that READ_CODE
cuts out, and where a read and a realigning skip leave what is still to be read. -/

namespace Sys2Proof.Machine

variable {w n off : Nat} {s t : State} {a : FetchAns} {taken : List Byte}

/-! ## AVAIL and ADVANCE -/

/-- Settles O28: every buffered byte gives 8 bits, and `bit_off` of at most 7 never uses up a byte. -/
theorem availCountsBits : Obligations.AvailCountsBits := by
  intro s
  refine ⟨avail_eq s, fun h => ?_, (avail_eq_zero s).trans List.length_eq_zero_iff.symm⟩
  rw [avail_eq]
  omega

/-- Whole bytes dropped and the offset kept modulo 8 are `n` bits together (R59). -/
theorem avail_advance (n : Nat) (s : State) : avail (advance n s) = avail s - n := by
  simp only [avail_eq, advance_buf, advance_bitOff, List.length_drop, BitVec.toNat_ofNat]
  omega

/-- Settles O29: the model's equation, the bits gone from `AVAIL`, and the shape that an advance within the buffer keeps. -/
theorem advanceMovesCursor : Obligations.AdvanceMovesCursor := fun n s hn =>
  ⟨rfl, avail_advance n s, advance_bufferOk hn⟩

/-! ## The value of a run of bits -/

/-- The weighted sum of `w` bits is the number that has these bits (R39). -/
theorem mod_two_pow_eq_bitsValue {x p : Nat} {bytes : List Byte}
    (h : ∀ k < w, x.testBit k = streamBit bytes (p + k)) : x % 2 ^ w = bitsValue bytes p w := by
  induction w with
  | zero => exact Nat.mod_one x
  | succ w ih =>
    have hbit : x / 2 ^ w % 2 = (streamBit bytes (p + w)).toNat := by
      rw [← Nat.toNat_testBit, h w (Nat.lt_succ_self w)]
    rw [Nat.mod_pow_succ, ih fun k hk => h k (hk.trans (Nat.lt_succ_self w)), hbit, bitsValue, Nat.mul_comm]

theorem streamBit_append {xs : List Byte} (ys : List Byte) {j : Nat} (h : j < 8 * xs.length) :
    streamBit (xs ++ ys) j = streamBit xs j := by
  rw [streamBit, streamBit, List.getD_append _ _ _ _ (by omega)]

/-- The code cut out of a buffer that holds its bits is their weighted sum, whatever bytes follow (R49, R58). -/
theorem codeValue_eq_bitsValue {xs : List Byte} (ys : List Byte) (hw : w ≤ 16) (ho : off < 8)
    (h : off + w ≤ 8 * xs.length) : (codeValue w off xs).toNat = bitsValue (xs ++ ys) off w := by
  rw [← Nat.mod_eq_of_lt (codeValue_lt w off xs hw)]
  refine mod_two_pow_eq_bitsValue fun k hk => ?_
  calc (codeValue w off xs).toNat.testBit k
      = (window xs).getLsbD (off + k) := by
        rw [BitVec.testBit_toNat, codeValue_getLsbD xs (hk.trans_le hw), decide_eq_true hk, Bool.true_and]
    _ = streamBit xs (off + k) := window_getLsbD xs (by omega)
    _ = streamBit (xs ++ ys) (off + k) := (streamBit_append ys (by omega)).symm

/-! ## READ_CODE -/

/-- Counting a code writes `grp_cnt` alone, and only under `GROUP8` (R24, R58). -/
theorem countCode_eq (s : State) :
    countCode s = { s with grpCnt := if s.realign = .group8 then s.grpCnt + 1#3 else s.grpCnt } := by
  unfold countCode
  split
  · next h => rw [if_neg (by simp [h])]
  · next h => rw [if_pos h]

/-- The fetch loop moves bytes from the source to the buffer: what is still to be read does not change. -/
theorem FillResult.pending_eq (h : FillResult w s a t taken) :
    pending s = t.buf ++ (if s.src = .eos then [] else t.input) := by
  have hbuf : t.buf = s.buf ++ taken := by rw [h.frame]
  by_cases hs : s.src = .eos
  · simp [pending, hs, hbuf, h.taken_open hs]
  · simp [pending, hs, hbuf, h.taken_input]

/-- Where the loop meets the terminator, all that is left is in the buffer. -/
theorem FillResult.buf_eq_pending (h : FillResult w s a t taken) (ha : a ≠ .ok) : t.buf = pending s := by
  rw [h.pending_eq]
  cases a with
  | ok => exact absurd rfl ha
  | eos =>
    obtain ⟨_, _, hs | hi, _⟩ := h.eos rfl
    · simp [hs]
    · simp [hi]
  | err =>
    obtain ⟨_, _, _, hi, _⟩ := h.err rfl
    simp [hi]

theorem FillResult.avail_lt (h : FillResult w s a t taken) (ha : a ≠ .ok) : avail t < w := by
  cases a with
  | ok => exact absurd rfl ha
  | eos => exact (h.eos rfl).1
  | err => exact (h.err rfl).1

theorem FillResult.bitOff_eq (h : FillResult w s a t taken) : t.bitOff = s.bitOff := by rw [h.frame]

theorem FillResult.pos_eq (h : FillResult w s a t taken) : t.pos = s.pos := by rw [h.frame]

theorem FillResult.grpCnt_eq (h : FillResult w s a t taken) : t.grpCnt = s.grpCnt := by rw [h.frame]

theorem FillResult.realign_eq (h : FillResult w s a t taken) : t.realign = s.realign := by rw [h.frame]

theorem FillResult.ok_iff (h : FillResult w s a t taken) (hw : 0 < w) :
    a = .ok ↔ s.bitOff.toNat + w ≤ 8 * (pending s).length := by
  constructor
  · intro ha
    have hav := (h.ok ha).1
    rw [avail_eq, h.bitOff_eq] at hav
    rw [h.pending_eq, List.length_append]
    omega
  · intro hle
    by_contra ha
    have hlt := h.avail_lt ha
    rw [avail_eq, h.buf_eq_pending ha, h.bitOff_eq] at hlt
    omega

/-- Settles O30: the fetch loop leaves the bits still to be read as they are and stops with the code's bits in the buffer
or with every byte in it. -/
theorem readCodeMeetsBitStream : Obligations.ReadCodeMeetsBitStream := by
  intro w s h9 h16
  obtain ⟨a, t, taken, hf, hc⟩ := readCode_cases w s h16
  have hok := hf.ok_iff (by omega)
  constructor
  · intro hle
    obtain ⟨hav, hsrc, -⟩ := hf.ok (hok.2 hle)
    have hread : readCode w s = .ok (.code (codeValue w s.bitOff.toNat t.buf)) (countCode (advance w t)) := by
      simpa [hok.2 hle] using hc
    have hpend : pending t = pending s := by rw [hf.pending_eq, pending, hsrc]
    have hbits : s.bitOff.toNat + w ≤ 8 * t.buf.length := by
      rw [avail_eq, hf.bitOff_eq] at hav
      omega
    refine ⟨_, _, hread, ?_, ?_, ?_, ?_, readCode_frame h16 hread, ?_⟩
    · rw [hf.pending_eq]
      exact codeValue_eq_bitsValue _ h16 s.bitOff.isLt hbits
    · simp [countCode_eq, hf.pos_eq]
    · calc pending (countCode (advance w t)) = pending (advance w t) := by rw [countCode_eq]; rfl
        _ = (pending s).drop ((s.bitOff.toNat + w) / 8) := by
          rw [pending_advance hav (by omega), hpend, hf.bitOff_eq]
    · simp [countCode_eq, hf.bitOff_eq]
    · simp [countCode_eq, hf.grpCnt_eq, hf.realign_eq]
  · intro hlt
    have ha : a ≠ .ok := fun h => absurd (hok.1 h) (by omega)
    have hread : readCode w s = .ok (if ending s = .eos then .eos else .err) t := by
      rcases hc with ⟨h, -⟩ | ⟨h, hc⟩ | ⟨h, hc⟩
      · exact absurd h ha
      · obtain ⟨_, _, _, hend, _⟩ := hf.eos h
        simp [hc, hend]
      · obtain ⟨_, _, _, _, hend, _⟩ := hf.err h
        simp [hc, hend]
    exact ⟨t, hread, hf.pos_eq, hf.bitOff_eq, hf.buf_eq_pending ha, hf.grpCnt_eq, readCode_frame h16 hread⟩

/-! ## REALIGN_SKIP -/

theorem SkipResult.grpCnt_eq (h : SkipResult n s a t) : t.grpCnt = s.grpCnt := by rw [h.frame]

/-- A skip that falls short answers what the source ends with (R36, R60). -/
theorem SkipResult.answer_eq (h : SkipResult n s a t) (ha : a ≠ .ok) :
    a = if ending s = .eos then .eos else .err := by
  cases a with
  | ok => exact absurd rfl ha
  | eos => simp [(h.eos rfl).2]
  | err =>
    obtain ⟨_, _, hend⟩ := h.err rfl
    simp [hend]

/-- Under `GROUP8` the skip takes the rest of the group from the cursor, and clears `grp_cnt` (R60). -/
theorem realignSkip_group8 (w : Nat) (hr : s.realign = .group8) (h0 : s.buf = [] → s.bitOff = 0#3) :
    ∃ a t, realignSkip w s = .ok a t ∧ Skipped (skipLength s.grpCnt w) s t ∧ t.grpCnt = 0#3 ∧ ReaderFrame s t ∧
      (a = .ok ↔ skipLength s.grpCnt w ≤ bitsLeft s) ∧ (a ≠ .ok → a = if ending s = .eos then .eos else .err) := by
  rcases realignSkip_cases w s with ⟨hnone, -⟩ | ⟨-, a, t, hskip, hres⟩
  · simp [hr] at hnone
  · obtain ⟨hcur, hok⟩ := hres.cursor h0
    exact ⟨a, t, hskip, ⟨hcur.enough, hcur.short⟩, hres.grpCnt_eq, realignSkip_frame hskip, hok, hres.answer_eq⟩

/-- Settles O32: the loop's outcome read at the two cases of `Skipped`. -/
theorem realignSkipMovesToGroupEnd : Obligations.RealignSkipMovesToGroupEnd := by
  intro w s h0 n left
  refine ⟨fun hr => by simp only [realignSkip, hr], fun hr hle => ?_, fun hr hlt => ?_⟩
  · obtain ⟨a, t, hskip, hcur, hgrp, hframe, hok, -⟩ := realignSkip_group8 w hr h0
    obtain ⟨hpos, hoff, hpend, -⟩ := hcur.enough hle
    exact ⟨t, hok.2 hle ▸ hskip, hcur, hpos, hoff, hpend, hgrp, hframe⟩
  · obtain ⟨a, t, hskip, hcur, hgrp, hframe, hok, hans⟩ := realignSkip_group8 w hr h0
    obtain ⟨hpos, hbuf, -, -, hin, -⟩ := hcur.short hlt
    have ha : a ≠ .ok := fun h => absurd (hok.1 h) (Nat.not_le.2 hlt)
    exact ⟨t, hans ha ▸ hskip, hcur, hpos, hbuf, hin, hgrp, hframe⟩

end Sys2Proof.Machine
end

section
/-! The CodeTable's operations (R33, R64 to R71): which codes are valid, what INIT, RESET and LEARN write, the expansion of a
valid code, and the guard of the walk. -/

namespace Sys2Proof.Machine

variable {b : Bool} {nf : BitVec 17} {c : Code} {s : State}

/-! ## Valid codes -/

theorem firstFree_toNat (b : Bool) : (Config.firstFree b).toNat = if b then 257 else 256 := by
  cases b <;> rfl

/-- Settles O33: the model's VALID compares with FIRST_FREE, which is one of two numbers. -/
theorem validCodes : Obligations.ValidCodes := by
  intro b nf c
  rw [valid_iff, firstFree_toNat]

theorem isLiteral_eq_false (h : 256 ≤ c.toNat) : isLiteral c = false := by
  rw [Bool.eq_false_iff, ne_eq, isLiteral_iff]
  omega

/-- With `next_free` at FIRST_FREE the range of the learned codes is empty (R64, R70). -/
theorem valid_firstFree_eq_false (b : Bool) (h : 256 ≤ c.toNat) : valid b (Config.firstFree b) c = false := by
  rw [Bool.eq_false_iff, ne_eq, valid_iff]
  omega

/-- Settles O34: both operations are one assignment. -/
theorem initAndResetTable : Obligations.InitAndResetTable :=
  fun s => ⟨rfl, rfl, fun _ => valid_firstFree_eq_false s.blockMode⟩

/-! ## LEARN -/

/-- Below a capacity of at most 65536, a code from 256 up has storage (R31). -/
theorem hasStorage_of_lt {m k : Nat} (hm : m ≤ 16) (hlo : 256 ≤ k) (hlt : k < 2 ^ m) : hasStorage k = true := by
  have : 2 ^ m ≤ 2 ^ 16 := Nat.pow_le_pow_right (by decide) hm
  simp only [hasStorage, Config.nLiterals, Config.codeLimit, Bool.and_eq_true, decide_eq_true_eq]
  omega

/-- Settles O35: LEARN writes one entry, so reads elsewhere are as before, and the capacity bounds the new `next_free`. -/
theorem learnAppendsEntry : Obligations.LearnAppendsEntry := by
  intro p b s nf hn hlo hmax
  refine ⟨fun hlt => ?_, fun hge => ?_⟩
  · refine ⟨_, learn_eq p b hn fun _ => hasStorage_of_lt hmax hlo hlt, ?_, ?_, ?_, ?_, rfl⟩
    · simp only [learnedNext, if_pos hlt]
    · have hnext := learnedNext_toNat (nf := nf) hmax
      simpa only [learnedNext, if_pos hlt] using hnext
    · simp only [learnedTable, if_pos hlt, Memory.read_write_same]
    · exact fun d hd => read_learnedTable_other s p b hd.symm
  · simp only [learn, hn, if_neg (Nat.not_lt.2 hge)]

/-! ## Expansions and the walk -/

/-- Settles O36: under a sound table every valid code expands, and the walk pushes that expansion. -/
theorem lookupChainPushesExpansion : Obligations.LookupChainPushesExpansion := by
  intro c s nf hn ht hv
  obtain ⟨x, xs, hx, _⟩ := expand_total ht c hv
  exact ⟨x, xs, hx, lookupChain_eq hx hn ht hv⟩

/-- A learned code's expansion has its prefix's, which is not empty, and one byte more (R66). -/
theorem two_le_length_expand {m : Memory} {bs : List Byte} (ht : TableOk b nf m) (hc : 256 ≤ c.toNat)
    (hv : valid b nf c = true) (hx : expand m c = some bs) : 2 ≤ bs.length := by
  have hl := isLiteral_eq_false hc
  obtain ⟨e, hr, hp, hvp⟩ := ht c hl hv
  obtain ⟨y, ys, hy, _⟩ := expand_total ht e.pfx hvp
  obtain rfl : y :: ys ++ [e.sfx] = bs := Option.some.inj ((expand_learned hl hr hp hy).symm.trans hx)
  simp

/-- Settles O37: each prefix on the way down is a smaller valid code, and the last one is a literal. -/
theorem expansionIsBounded : Obligations.ExpansionIsBounded := by
  intro b nf m c ht hc hv
  obtain ⟨x, xs, hx, _, hle⟩ := expand_total ht c hv
  refine ⟨x :: xs, hx, two_le_length_expand ht hc hv hx, ?_⟩
  rw [← firstFree_toNat]
  exact hle (isLiteral_eq_false hc)

/-! ## The guard of the walk -/

theorem chainGuard_of_not_valid (hn : s.nextFree = some nf) (hv : valid s.blockMode nf c = false) :
    chainGuard c s = .raised (raiseCorrupt .errCorruptChain c s) := by
  simp [chainGuard, hn, hv]

theorem chainGuard_of_le_pfx {e : Entry} (hn : s.nextFree = some nf) (hv : valid s.blockMode nf c = true)
    (hr : s.table.read c.toNat = some e) (hp : c.toNat ≤ e.pfx.toNat) :
    chainGuard c s = .raised (raiseCorrupt .errCorruptChain c s) := by
  simp [chainGuard, hn, hv, hr, hp]

/-- A walk begins with the guard of its own code (R67, R68). -/
theorem lookupChain_of_chainGuard_raised {t : State} (hc : 256 ≤ c.toNat) (hg : chainGuard c s = .raised t) :
    lookupChain c s = .raised t := by
  obtain ⟨n, hfuel⟩ : ∃ n, c.toNat = n + 1 := ⟨c.toNat - 1, by omega⟩
  rw [lookupChain, hfuel, lookupLoop]
  simp [isLiteral_eq_false hc, hg, Flow.andThen]

/-- Settles O23: the first turn of the walk raises, before anything is pushed. -/
theorem chainGuardRaises : Obligations.ChainGuardRaises := by
  intro c s nf p hn hc hp hbad
  have hg : chainGuard c s = .raised (raiseCorrupt .errCorruptChain c s) := by
    rcases hbad with hv | ⟨e, hv, hr, hle⟩
    · exact chainGuard_of_not_valid hn hv
    · exact chainGuard_of_le_pfx hn hv hr hle
  simp [exec, execRef, lookupChain_of_chainGuard_raised hc hg, Flow.andThen, Flow.toOutcome, raiseCorrupt, raise, hp]

end Sys2Proof.Machine
end

section
/-! Progress (R72, R74, R93, R128): from a state with the invariant the header, a code's read and every code's meaning come
to a next state, and no walk takes ERR_CORRUPT_CHAIN. -/

namespace Sys2Proof.Machine

/-! ## The header -/

/-- How many header bytes are still to be taken, the one at this position included (R6). -/
def bytesToCome : HdrPos → Nat
  | .m0 => 3
  | .m1 => 2
  | .ctl => 1

theorem execHdrCtl_next {s : State} {x y : Byte} (h0 : s.h0 = some x) (h1 : s.h1 = some y) (block : Bool)
    (rsvd : BitVec 2) (maxbits : BitVec 5) : ∃ t, execHdrCtl block rsvd maxbits s = .next t := by
  simp only [execHdrCtl, h0, h1]
  split
  · exact ⟨_, rfl⟩
  · split
    · exact ⟨_, rfl⟩
    · exact ⟨_, rfl⟩

/-- A header byte's meaning at its own position ends the header or moves to a later position: HDR.CTL finds both bytes
held (R75 to R77). -/
theorem exec_headerByte_next (s : State) (b : Byte) :
    ∃ t, exec (decodeHeader (hdrPos s) b) s = .next t ∧
      (t.phase = .header → bytesToCome (hdrPos t) < bytesToCome (hdrPos s)) := by
  rcases h0 : s.h0 with _ | x
  · have hpos : hdrPos s = .m0 := by simp only [hdrPos, h0]
    refine ⟨{ s with h0 := some b }, by rw [hpos]; rfl, fun _ => ?_⟩
    rcases h1 : s.h1 with _ | y <;> simp [hdrPos, h0, bytesToCome]
  · rcases h1 : s.h1 with _ | y
    · have hpos : hdrPos s = .m1 := by simp only [hdrPos, h0, h1]
      exact ⟨{ s with h1 := some b }, by rw [hpos]; rfl, fun _ => by simp [hdrPos, h0, h1, bytesToCome]⟩
    · have hpos : hdrPos s = .ctl := by simp only [hdrPos, h0, h1]
      obtain ⟨t, ht⟩ := execHdrCtl_next h0 h1 (b.getLsbD 7) (b.extractLsb' 5 2) (b.extractLsb' 0 5)
      exact ⟨t, by rw [hpos]; exact ht, fun hp => absurd hp (execHdrCtl_end ht).phase_ne_header⟩

theorem runItem_header_next {s : State} (hp : s.phase = .header) :
    ∃ t, runItem s = .next t ∧ (t.phase = .header → bytesToCome (hdrPos t) < bytesToCome (hdrPos s)) := by
  simp only [runItem, fetchItem, hp, fetchHeader, hdrFetch]
  rcases srcNext_cases s with ⟨b, rest, _, _, hn⟩ | ⟨_, hn⟩ | ⟨_, _, _, hn⟩ | ⟨_, _, _, hn⟩ <;> rw [hn]
  · exact exec_headerByte_next { s with input := rest, requests := s.requests + 1 } b
  all_goals exact ⟨_, rfl, nofun⟩

/-- As many turns as there are bytes to come bring the header to its end (R74). -/
theorem hdrItems_next {n : Nat} {s : State} (hp : s.phase = .header) (hn : bytesToCome (hdrPos s) ≤ n) :
    ∃ t, hdrItems n s = .next t := by
  induction n generalizing s with
  | zero => cases hpos : hdrPos s <;> simp [hpos, bytesToCome] at hn
  | succ n ih =>
    obtain ⟨u, hu, hless⟩ := runItem_header_next hp
    simp only [hdrItems, hu]
    split
    · next hup => exact ih hup (by have := hless hup; omega)
    · exact ⟨u, rfl⟩

theorem hdrStep_next {s : State} (hp : s.phase = .header) : ∃ t, hdrStep s = .next t := by
  have hn : bytesToCome (hdrPos s) ≤ Config.hdrLen := by cases hdrPos s <;> decide
  obtain ⟨u, hu⟩ := hdrItems_next hp hn
  exact ⟨dropWork u, by rw [hdrStep, hu]; rfl⟩

/-! ## A code's meaning -/

/-- The outcome is a next state, and its status is not ERR_CORRUPT_CHAIN. -/
def GoesOn (o : Host.Outcome State Fault Refusal) : Prop := ∃ t, o = .next t ∧ t.status ≠ .errCorruptChain

section
variable {u : State} {nf : BitVec 17} {oc : Code}
variable (hn : u.nextFree = some nf) (hw : WidthOk u nf) (ho : u.oldcode = some oc)
variable (hst : u.status ≠ .errCorruptChain)
include hn hw ho hst

/-- TAIL keeps the status, or takes the source's error in its skip (R88, R89). -/
theorem tail_goesOn (c : Code) (fb : Byte) : GoesOn (tail c fb u).toOutcome := by
  obtain ⟨t, htail, hT, _⟩ := tail_cases c fb ho hn hw.hasStorage
  refine ⟨t, htail, ?_⟩
  rcases hT.outcome with ⟨hkept, _⟩ | ⟨_, _, _, hio, _⟩
  · rw [hkept]; exact hst
  · rw [hio]; decide

variable (ht : TableOk u.blockMode nf u.table) (hs : u.stack = [])
include ht hs

/-- REF walks from a valid code (R85). -/
theorem execRef_goesOn {c : Code} (hv : valid u.blockMode nf c = true) : GoesOn (execRef c u) := by
  obtain ⟨x, xs, _, hrun⟩ := execRef_eq_tail hn ht hv hs
  rw [hrun]
  exact tail_goesOn (u := { u with out := u.out ++ x :: xs, stack := [] }) hn hw ho hst c x

/-- KWK walks from `oldcode`, which is below its own code, so the byte pushed first has room (R71, R86). -/
theorem execKwk_goesOn {c : Code} {fc : Byte} (hf : u.finchar = some fc) (hvo : valid u.blockMode nf oc = true)
    (hc : c.toNat = nf.toNat) : GoesOn (execKwk c u) := by
  have hlt : oc.toNat < nf.toNat := by
    have hff := firstFree_bounds u.blockMode
    have hge := hw.firstFree_le
    have := (valid_iff _ _ _).1 hvo
    omega
  have hcode : c.toNat < 65536 := c.isLt
  obtain ⟨x, xs, _, hrun⟩ := execKwk_eq_tail c hn ht ho hf hvo (by omega) hs
  rw [hrun]
  exact tail_goesOn (u := { u with out := u.out ++ (x :: xs ++ [fc]), stack := [] }) hn hw ho hst c x

end

/-- CLR keeps the status, or takes the source's error in its skip (R81). -/
theorem execClr_goesOn {u : State} (hst : u.status ≠ .errCorruptChain) : GoesOn (execClr u) := by
  rcases execClr_cases u with ⟨_, he⟩ | ⟨_, a, t, hk, ⟨_, he⟩ | ⟨_, he⟩⟩ <;> refine ⟨_, he, ?_⟩
  · exact hst
  · rw [hk.frame]; exact hst
  · exact nofun

/-- The meaning of every code that the classification answers, on a state with the invariant's registers and table. -/
theorem exec_goesOn {u : State} {c : Code} {i : Instr} (hC : CodeOk u) (hs : u.stack = [])
    (hst : u.status ≠ .errCorruptChain) (hfit : (decodeCtx u).fits c = true)
    (hc : classify (decodeCtx u) c = .ok i) : GoesOn (exec i u) := by
  obtain ⟨nf, hn, hw, ht, hphase⟩ := hC
  obtain ⟨hadm, hval⟩ := admits_of_classify hfit hc
  have steady (hp : u.phase = .steady) : ∃ oc fc, u.oldcode = some oc ∧ u.finchar = some fc ∧
      valid u.blockMode nf oc = true := by
    simp only [PhaseOk, hp] at hphase
    obtain ⟨oc, fc, ho, hf, hvo, _⟩ := hphase
    exact ⟨oc, fc, ho, hf, hvo⟩
  cases i with
  | hdrM0 | hdrM1 | hdrCtl | endStream => cases hval
  | first v | plit v => exact ⟨_, rfl, hst⟩
  | badFirst d | badPclr d | badRange d => exact ⟨_, rfl, nofun⟩
  | clr => exact execClr_goesOn hst
  | lit v =>
    obtain ⟨oc, _, ho, _⟩ := steady (of_decide_eq_true hadm)
    exact tail_goesOn (u := emit v u) hn hw ho hst v.toCode v
  | ref d =>
    obtain ⟨n, hn', hp, hff, hlt, _⟩ := admits_ref_iff.1 hadm
    obtain rfl : n = nf := Option.some.inj (hn'.symm.trans hn)
    obtain ⟨oc, _, ho, _⟩ := steady hp
    exact execRef_goesOn hn hw ho hst ht hs ((valid_iff _ _ _).2 (.inr ⟨hff, hlt⟩))
  | kwk d =>
    obtain ⟨n, hn', hp, _, heq, _⟩ := admits_kwk_iff.1 hadm
    obtain rfl : n = nf := Option.some.inj (hn'.symm.trans hn)
    obtain ⟨oc, fc, ho, hf, hvo⟩ := steady hp
    exact execKwk_goesOn hn hw ho hst ht hs hf hvo heq

/-! ## The step -/

theorem fetchItem_of_readsCode {s : State} (hp : s.phase.readsCode = true) : fetchItem s = fetchCode s := by
  cases hph : s.phase with
  | awaitFirst | steady | cleared => simp only [fetchItem, hph]
  | header | done | fault => simp [hph, Phase.readsCode] at hp

theorem step_of_readsCode {s : State} (hr : s.rst = false) (hp : s.phase.readsCode = true) :
    step s = endStep (runItem s) := by
  cases hph : s.phase with
  | awaitFirst | steady | cleared => simp [step, stepWithReset, hr, stepBody, hph, codeStep]
  | header | done | fault => simp [hph, Phase.readsCode] at hp

/-- The width is legal in every phase in which codes are read (R14, R73). -/
theorem CodeOk.widthOk {s : State} (hC : CodeOk s) : (decodeCtx s).widthOk = true := by
  obtain ⟨nf, _, ⟨hlo, hle, hhi, _⟩, _⟩ := hC
  exact widthOk_iff.2 ⟨hlo, Nat.le_trans hle hhi⟩

/-- Every code has a row in such a phase (R51, R73). -/
theorem CodeOk.classify_total {s : State} (hC : CodeOk s) (hp : s.phase.readsCode = true) (c : Code) :
    ∃ i, classify (decodeCtx s) c = .ok i := by
  obtain ⟨nf, hn, _, _, hphase⟩ := hC
  refine classificationIsTotal (decodeCtx s) c hp (fun _ => Option.isSome_iff_exists.2 ⟨nf, hn⟩) fun hcl => ?_
  simp only [PhaseOk, show s.phase = .cleared from hcl] at hphase
  exact hphase.1

theorem CodeOk.of_fetched {s u : State} (hC : CodeOk s) (hu : CodeFetched s u) : CodeOk u := by
  rw [hu.frame]
  exact hC

theorem runItem_goesOn {s : State} (hp : s.phase.readsCode = true) (hC : CodeOk s) (hs : s.stack = [])
    (hst : s.status ≠ .errCorruptChain) : GoesOn (runItem s) := by
  have hw := hC.widthOk
  have hle := (widthOk_bounds hw).2
  rw [runItem, fetchItem_of_readsCode hp]
  obtain ⟨a, t, taken, hf, ⟨_, hc⟩ | ⟨_, hc⟩ | ⟨rfl, c, hcv, hc⟩⟩ := fetchCode_cases hw
  · rw [hc]
    exact ⟨_, rfl, nofun⟩
  · rw [hc]
    refine ⟨_, rfl, ?_⟩
    dsimp only
    split <;> decide
  · have hu := codeFetched_of_fill hf hle
    have hCu := hC.of_fetched hu
    obtain ⟨i, hi⟩ := hCu.classify_total (by rw [hu.frame]; exact hp) c
    have hfit : c.toNat < 2 ^ s.nBits.toNat := hcv ▸ codeValue_lt _ _ _ hle
    rw [hc, hi]
    refine exec_goesOn hCu (by rw [hu.frame]; exact hs) (by rw [hu.frame]; exact hst) ?_ hi
    rw [fits_iff, hu.frame]
    exact hfit

/-- Every code step from a state with the invariant (R72). -/
theorem step_goesOn {s : State} (hI : Inv s) (hr : s.rst = false) (hp : s.phase.readsCode = true) :
    GoesOn (step s) := by
  obtain ⟨_, ⟨hs, _⟩, _, _, _, hstat, _, hcode⟩ := hI
  obtain ⟨_, hd, hf⟩ := (Phase.readsCode_iff _).1 hp
  have hst : s.status ≠ .errCorruptChain := by
    rw [(hstat.running hd hf).1]
    decide
  obtain ⟨t, ht, hok⟩ := runItem_goesOn hp (hcode hp) hs hst
  exact ⟨dropWork t, by rw [step_of_readsCode hr hp, ht]; rfl, hok⟩

/-- Settles O40: reset and the terminal phases take their step in any state, the header needs no more turns than it has
bytes, and a code step goes on under the invariant. -/
theorem stepNeverStops : Obligations.StepNeverStops := by
  intro s hI
  rcases hr : s.rst with _ | _
  · cases hp : s.phase with
    | header => rw [step_of_header hr hp]; exact hdrStep_next hp
    | done => exact ⟨s, step_of_terminal hr (.inl hp)⟩
    | fault => exact ⟨s, step_of_terminal hr (.inr hp)⟩
    | awaitFirst | steady | cleared =>
      obtain ⟨t, ht, _⟩ := step_goesOn hI hr (by rw [hp]; rfl)
      exact ⟨t, ht⟩
  · exact ⟨_, step_of_rst hr⟩

/-- Settles O52: the reset state is RUNNING, and a code step goes on without that exception. -/
theorem chainErrorIsUnreachable : Obligations.ChainErrorIsUnreachable := by
  intro s t hI hp h
  rcases hr : s.rst with _ | _
  · obtain ⟨t', ht, hst⟩ := step_goesOn hI hr hp
    obtain rfl : t' = t := Host.Outcome.next.inj (ht.symm.trans h)
    exact hst
  · obtain rfl : hwReset s = t := Host.Outcome.next.inj ((step_of_rst hr).symm.trans h)
    exact nofun

end Sys2Proof.Machine
end

section
/-! Noninterference (R65, R70, R72, R122): two states whose tables agree on the valid learned codes take the same step, and
end with tables that agree again. Every operation of the step is carried through that relation once. -/

namespace Sys2Proof.Machine

/-! ## The relation, on states, flows and outcomes -/

/-- The table `m` agrees with the state's own on the valid learned codes (R65). -/
def AgreesOnValid (s : State) (m : Memory) : Prop :=
  ∀ nf, s.nextFree = some nf → ∀ c : Code, 256 ≤ c.toNat → valid s.blockMode nf c = true →
    m.read c.toNat = s.table.read c.toNat

/-- `s'` is `s` but for its table, which agrees with that of `s` on the valid learned codes. -/
def Alike (s s' : State) : Prop := ∃ m, s' = { s with table := m } ∧ AgreesOnValid s m

/-- The two operations end in the same way, with the same value and in states that are alike. -/
inductive FlowAlike {α : Type} : Flow α → Flow α → Prop where
  | ok (a : α) {s s' : State} (h : Alike s s') : FlowAlike (.ok a s) (.ok a s')
  | raised {s s' : State} (h : Alike s s') : FlowAlike (.raised s) (.raised s')
  | stop (f : Fault) : FlowAlike (.stop f) (.stop f)

/-- Where the first outcome is a next state, the second is one too, and the states are alike. -/
def NextAlike (o o' : Host.Outcome State Fault Refusal) : Prop :=
  ∀ t, o = .next t → ∃ t', o' = .next t' ∧ Alike t t'

theorem FlowAlike.andThen {α β : Type} {x x' : Flow α} {k k' : α → State → Flow β} (hx : FlowAlike x x')
    (hk : ∀ a s s', Alike s s' → FlowAlike (k a s) (k' a s')) : FlowAlike (x.andThen k) (x'.andThen k') := by
  cases hx with
  | ok a h => exact hk a _ _ h
  | raised h => exact .raised h
  | stop f => exact .stop f

theorem NextAlike.next {t t' : State} (h : Alike t t') : NextAlike (.next t) (.next t') := by
  rintro _ ⟨⟩
  exact ⟨t', rfl, h⟩

theorem NextAlike.fault (f : Fault) (o' : Host.Outcome State Fault Refusal) : NextAlike (.fault f) o' :=
  fun _ h => nomatch h

theorem FlowAlike.toOutcome {α : Type} {x x' : Flow α} (hx : FlowAlike x x') : NextAlike x.toOutcome x'.toOutcome := by
  cases hx with
  | ok _ h => exact NextAlike.next h
  | raised h => exact NextAlike.next h
  | stop f => exact NextAlike.fault f _

theorem NextAlike.endStep {o o' : Host.Outcome State Fault Refusal} (h : NextAlike o o') :
    NextAlike (endStep o) (endStep o') := by
  cases o with
  | next t =>
    obtain ⟨_, rfl, m, rfl, hm⟩ := h t rfl
    exact NextAlike.next ⟨m, rfl, hm⟩
  | fault f => exact NextAlike.fault f _
  | refused r => exact fun _ h => nomatch h

/-! ## The BitReader, which knows nothing of the table -/

theorem fetchByte_alike {s s' : State} (h : Alike s s') :
    ∃ a t t', fetchByte s = (a, t) ∧ fetchByte s' = (a, t') ∧ Alike t t' := by
  obtain ⟨m, rfl, hm⟩ := h
  rcases fetchByte_cases s with ⟨b, rest, ho, hi, hf⟩ | ⟨ho, hf⟩ | ⟨ho, hi, ht, hf⟩ | ⟨ho, hi, ht, hf⟩
  · exact ⟨_, _, _, hf, by simp [fetchByte, srcNext, ho, hi], m, rfl, hm⟩
  · exact ⟨_, _, _, hf, by simp [fetchByte, srcNext, ho], m, rfl, hm⟩
  · exact ⟨_, _, _, hf, by simp [fetchByte, srcNext, ho, hi, ht], m, rfl, hm⟩
  · exact ⟨_, _, _, hf, by simp [fetchByte, srcNext, ho, hi, ht], m, rfl, hm⟩

theorem advance_alike (n : Nat) {s s' : State} (h : Alike s s') : Alike (advance n s) (advance n s') := by
  obtain ⟨m, rfl, hm⟩ := h
  exact ⟨m, rfl, hm⟩

theorem avail_alike {s s' : State} (h : Alike s s') : avail s' = avail s := by
  obtain ⟨m, rfl, _⟩ := h
  rfl

theorem countCode_alike {s s' : State} (h : Alike s s') : Alike (countCode s) (countCode s') := by
  obtain ⟨m, rfl, hm⟩ := h
  rw [countCode_eq, countCode_eq]
  exact ⟨m, rfl, hm⟩

theorem fill_alike (fuel w : Nat) {s s' : State} (h : Alike s s') : FlowAlike (fill fuel w s) (fill fuel w s') := by
  induction fuel generalizing s s' with
  | zero =>
    rw [fill, fill, avail_alike h]
    split
    · exact .ok _ h
    · exact .stop _
  | succ n ih =>
    obtain ⟨a, t, t', hs, hs', ht⟩ := fetchByte_alike h
    rw [fill, fill, avail_alike h, hs, hs']
    split
    · exact .ok _ h
    · cases a with
      | ok => exact ih ht
      | eos | err => exact .ok _ ht

theorem readCode_alike (w : Nat) {s s' : State} (h : Alike s s') : FlowAlike (readCode w s) (readCode w s') := by
  refine (fill_alike _ w h).andThen fun a t t' ht => ?_
  cases a with
  | ok =>
    have hcode : codeValue w t'.bitOff.toNat t'.buf = codeValue w t.bitOff.toNat t.buf := by
      obtain ⟨m, rfl, _⟩ := ht
      rfl
    dsimp only
    rw [hcode]
    exact .ok _ (countCode_alike (advance_alike w ht))
  | eos | err => exact .ok _ ht

theorem skipBits_alike (fuel n : Nat) {s s' : State} (h : Alike s s') :
    FlowAlike (skipBits fuel n s) (skipBits fuel n s') := by
  induction fuel generalizing n s s' with
  | zero =>
    rw [skipBits, skipBits]
    split
    · exact .ok _ h
    · exact .stop _
  | succ k ih =>
    obtain ⟨a, t, t', hs, hs', ht⟩ := fetchByte_alike h
    rw [skipBits, skipBits, avail_alike h, hs, hs']
    split
    · exact .ok _ h
    · dsimp only
      split
      · cases a with
        | ok => exact ih n ht
        | eos | err => exact .ok _ ht
      · exact ih _ (advance_alike _ h)

theorem realignSkip_alike (w : Nat) {s s' : State} (h : Alike s s') :
    FlowAlike (realignSkip w s) (realignSkip w s') := by
  obtain ⟨m, rfl, hm⟩ := h
  unfold realignSkip
  dsimp only
  split
  · exact .ok _ ⟨m, rfl, hm⟩
  · exact skipBits_alike _ _ ⟨m, rfl, hm⟩

/-! ## Exceptions, the stack and the output -/

theorem raise_alike (st : Status) (fc : Option Code) (fp : Option Nat) {s s' : State} (h : Alike s s') :
    Alike (raise st fc fp s) (raise st fc fp s') := by
  obtain ⟨m, rfl, hm⟩ := h
  exact ⟨m, rfl, hm⟩

theorem raiseCorrupt_alike (st : Status) (c : Code) {s s' : State} (h : Alike s s') :
    Alike (raiseCorrupt st c s) (raiseCorrupt st c s') := by
  obtain ⟨m, rfl, hm⟩ := h
  exact ⟨m, rfl, hm⟩

theorem push_alike (c : Code) (b : Byte) {s s' : State} (h : Alike s s') : FlowAlike (push c b s) (push c b s') := by
  obtain ⟨m, rfl, hm⟩ := h
  unfold push
  dsimp only
  split
  · exact .raised (raiseCorrupt_alike _ c ⟨m, rfl, hm⟩)
  · exact .ok () ⟨m, rfl, hm⟩

theorem emitStack_alike {s s' : State} (h : Alike s s') : Alike (emitStack s) (emitStack s') := by
  obtain ⟨m, rfl, hm⟩ := h
  rw [emitStack_eq, emitStack_eq]
  exact ⟨m, rfl, hm⟩

/-! ## The CodeTable -/

/-- The guard tests that the code is valid before it reads the entry (R68). -/
theorem chainGuard_alike {c : Code} {s s' : State} (hc : 256 ≤ c.toNat) (h : Alike s s') :
    FlowAlike (chainGuard c s) (chainGuard c s') := by
  obtain ⟨m, rfl, hm⟩ := h
  have hraise : FlowAlike (α := Entry) (.raised (raiseCorrupt .errCorruptChain c s))
      (.raised (raiseCorrupt .errCorruptChain c { s with table := m })) :=
    .raised (raiseCorrupt_alike _ c ⟨m, rfl, hm⟩)
  unfold chainGuard
  dsimp only
  split
  · exact .stop _
  · next nf hn =>
    split
    · next hv =>
      rw [hm nf hn c hc hv]
      split
      · exact .stop _
      · split
        · exact hraise
        · split
          · exact hraise
          · exact .ok _ ⟨m, rfl, hm⟩
    · exact hraise

/-- The walk ends at a literal, which is wired (R32, R67). -/
theorem pushLiteral_alike (c : Code) {s s' : State} (h : Alike s s') :
    FlowAlike ((push c c.low s).andThen fun _ s1 => .ok c.low s1)
      ((push c c.low s').andThen fun _ s1 => .ok c.low s1) :=
  (push_alike c c.low h).andThen fun _ _ _ ht => .ok _ ht

theorem lookupLoop_alike (n : Nat) (c : Code) {s s' : State} (h : Alike s s') :
    FlowAlike (lookupLoop n c s) (lookupLoop n c s') := by
  induction n generalizing c s s' with
  | zero =>
    rw [lookupLoop, lookupLoop]
    split
    · exact pushLiteral_alike c h
    · exact .stop _
  | succ n ih =>
    rw [lookupLoop, lookupLoop]
    split
    · exact pushLiteral_alike c h
    · next hl =>
      rw [isLiteral_iff] at hl
      exact (chainGuard_alike (by omega) h).andThen fun e _ _ ht =>
        (push_alike c e.sfx ht).andThen fun _ _ _ hu => ih e.pfx hu

theorem lookupChain_alike (c : Code) {s s' : State} (h : Alike s s') :
    FlowAlike (lookupChain c s) (lookupChain c s') := lookupLoop_alike _ c h

/-- The entry LEARN writes is the same in both tables, so they agree on the code that has become valid (R69). -/
theorem agreesOnValid_write {s : State} {m : Memory} {nf : BitVec 17} (e : Entry) (hn : s.nextFree = some nf)
    (hs : hasStorage nf.toNat = true) (hm : AgreesOnValid s m) :
    AgreesOnValid { s with table := s.table.write nf.toNat e, nextFree := some (nf + 1#17) } (m.write nf.toNat e) := by
  simp only [hasStorage, Config.nLiterals, Config.codeLimit, Bool.and_eq_true, decide_eq_true_eq] at hs
  have hnext : (nf + 1#17).toNat = nf.toNat + 1 := by
    rw [BitVec.toNat_add, BitVec.toNat_ofNat, Nat.mod_eq_of_lt (by omega)]
  rintro _ ⟨⟩ c hc hv
  by_cases hcn : c.toNat = nf.toNat
  · simp only [hcn, Memory.read_write_same]
  · simp only [Memory.read_write_other _ _ hcn]
    have hlt : valid s.blockMode (nf + 1#17) c = true := hv
    refine hm nf hn c hc ?_
    rw [valid_iff] at hlt ⊢
    omega

theorem learn_alike (p : Code) (b : Byte) {s s' : State} (h : Alike s s') : FlowAlike (learn p b s) (learn p b s') := by
  obtain ⟨m, rfl, hm⟩ := h
  unfold learn
  dsimp only
  split
  · exact .stop _
  · next nf hn =>
    split
    · split
      · next hs => exact .ok () ⟨_, rfl, agreesOnValid_write _ hn hs hm⟩
      · exact .stop _
    · exact .ok () ⟨m, rfl, hm⟩

theorem grow_alike {s s' : State} (h : Alike s s') : FlowAlike (grow s) (grow s') := by
  obtain ⟨m, rfl, hm⟩ := h
  have hwide : Alike { s with nBits := s.nBits + 1#5 } { s with nBits := s.nBits + 1#5, table := m } := ⟨m, rfl, hm⟩
  unfold grow
  dsimp only
  split
  · exact .stop _
  · split
    · refine (realignSkip_alike _ hwide).andThen fun a _ _ ht => ?_
      cases a with
      | ok | eos => exact .ok () ht
      | err => exact .raised (raise_alike _ _ _ ht)
    · exact .ok () ⟨m, rfl, hm⟩

theorem tail_alike (c : Code) (fb : Byte) {s s' : State} (h : Alike s s') : FlowAlike (tail c fb s) (tail c fb s') := by
  have ho : s'.oldcode = s.oldcode := by
    obtain ⟨m, rfl, _⟩ := h
    rfl
  unfold tail
  rw [ho]
  split
  · exact .stop _
  · next p _ =>
    refine (learn_alike p fb h).andThen fun _ t t' ht => grow_alike ?_
    obtain ⟨m, rfl, hm⟩ := ht
    exact ⟨m, rfl, hm⟩

/-! ## The meanings -/

/-- After CLR no learned code is valid, whatever the tables hold (R70, R81). -/
theorem clearDecoder_alike {s s' : State} (hb : s.blockMode = true) (h : Alike s s') :
    Alike (clearDecoder s) (clearDecoder s') := by
  obtain ⟨m, rfl, _⟩ := h
  refine ⟨m, rfl, ?_⟩
  rintro _ ⟨⟩ c hc hv
  have hbt : (clearDecoder s).blockMode = true := hb
  rw [hbt] at hv
  exact absurd hv (Bool.eq_false_iff.1 (valid_firstFree_eq_false true hc))

theorem execClr_alike {s s' : State} (hb : s.blockMode = true) (h : Alike s s') :
    NextAlike (execClr s) (execClr s') := by
  have hw : s'.nBits = s.nBits := by
    obtain ⟨m, rfl, _⟩ := h
    rfl
  unfold execClr
  rw [hw]
  refine ((realignSkip_alike _ (clearDecoder_alike hb h)).andThen fun a _ _ ht => ?_).toOutcome
  cases a with
  | ok | eos => exact .ok () ht
  | err => exact .raised (raise_alike _ _ _ ht)

theorem execRef_alike (c : Code) {s s' : State} (h : Alike s s') : NextAlike (execRef c s) (execRef c s') :=
  ((lookupChain_alike c h).andThen fun fb _ _ ht => tail_alike c fb (emitStack_alike ht)).toOutcome

theorem execKwk_alike (c : Code) {s s' : State} (h : Alike s s') : NextAlike (execKwk c s) (execKwk c s') := by
  have hof : s'.oldcode = s.oldcode ∧ s'.finchar = s.finchar := by
    obtain ⟨m, rfl, _⟩ := h
    exact ⟨rfl, rfl⟩
  unfold execKwk
  rw [hof.1, hof.2]
  split
  · next oc fc _ _ =>
    exact ((push_alike oc fc h).andThen fun _ _ _ ht =>
      (lookupChain_alike oc ht).andThen fun fb _ _ hu => tail_alike c fb (emitStack_alike hu)).toOutcome
  · exact NextAlike.fault _ _
  · exact NextAlike.fault _ _

/-- The meaning of every code and of END. -/
theorem exec_alike {i : Instr} {s s' : State} (hp : s.phase.readsCode = true) (hi : (decodeCtx s).admits i = true)
    (h : Alike s s') : NextAlike (exec i s) (exec i s') := by
  have hph : s.phase ≠ .header := ((Phase.readsCode_iff _).1 hp).1
  have hemit (b : Byte) : Alike (emit b s) (emit b s') := by
    obtain ⟨m, rfl, hm⟩ := h
    exact ⟨m, rfl, hm⟩
  cases i with
  | hdrM0 | hdrM1 | hdrCtl => simp [DecodeCtx.admits, decodeCtx, hph] at hi
  | first v | plit v =>
    obtain ⟨m, rfl, hm⟩ := h
    exact NextAlike.next ⟨m, rfl, hm⟩
  | badFirst c | badPclr c | badRange c => exact NextAlike.next (raiseCorrupt_alike _ c h)
  | clr => exact execClr_alike (admits_clr_iff.1 hi).1 h
  | lit v => exact (tail_alike _ v (hemit v)).toOutcome
  | ref c => exact execRef_alike c h
  | kwk c => exact execKwk_alike c h
  | endStream =>
    obtain ⟨m, rfl, hm⟩ := h
    exact NextAlike.next ⟨m, rfl, hm⟩

/-! ## The step -/

theorem decodeCtx_alike {s s' : State} (h : Alike s s') : decodeCtx s' = decodeCtx s := by
  obtain ⟨m, rfl, _⟩ := h
  rfl

theorem fetchCode_alike {s s' : State} (h : Alike s s') : FlowAlike (fetchCode s) (fetchCode s') := by
  have hctx := decodeCtx_alike h
  obtain ⟨m, rfl, hm⟩ := h
  have hstart : Alike { s with p0 := some s.pos } { s with p0 := some s.pos, table := m } := ⟨m, rfl, hm⟩
  unfold fetchCode
  rw [hctx]
  split
  · refine (readCode_alike _ hstart).andThen fun a t t' ht => ?_
    cases a with
    | err => exact .raised (raise_alike _ _ _ ht)
    | eos => exact .ok _ ht
    | code c =>
      dsimp only
      rw [decodeCtx_alike ht]
      split
      · exact .ok _ ht
      · exact .stop _
  · exact .stop _

/-- What is fetched is a row whose condition holds, END included (R51, R78). -/
theorem admits_of_fetchCode {i : Instr} {s u : State} (hp : s.phase.readsCode = true) (h : fetchCode s = .ok i u) :
    u.phase.readsCode = true ∧ (decodeCtx u).admits i = true := by
  by_cases hw : (decodeCtx s).widthOk = true
  · have hle := (widthOk_bounds hw).2
    obtain ⟨a, t, taken, hf, ⟨_, hc⟩ | ⟨_, hc⟩ | ⟨rfl, c, hcv, hc⟩⟩ := fetchCode_cases hw
    · cases hc.symm.trans h
    · obtain ⟨rfl, rfl⟩ := Flow.ok.inj (hc.symm.trans h)
      have hph : t.phase.readsCode = true := by rw [hf.frame]; exact hp
      exact ⟨hph, hph⟩
    · have hu := codeFetched_of_fill hf hle
      rw [hc] at h
      split at h
      · next j hj =>
        obtain ⟨rfl, rfl⟩ := Flow.ok.inj h
        refine ⟨by rw [hu.frame]; exact hp, (admits_of_classify ?_ hj).1⟩
        rw [fits_iff, hcv]
        have hbits : (decodeCtx (countCode (advance s.nBits.toNat t))).nBits = s.nBits := by rw [hu.frame]; rfl
        rw [hbits]
        exact codeValue_lt _ _ _ hle
      · cases h
  · rw [fetchCode, if_neg hw] at h
    cases h

theorem runItem_alike {s s' : State} (hp : s.phase.readsCode = true) (h : Alike s s') :
    NextAlike (runItem s) (runItem s') := by
  have hp' : s'.phase.readsCode = true := by
    obtain ⟨m, rfl, _⟩ := h
    exact hp
  have hx := fetchCode_alike h
  rw [runItem, runItem, fetchItem_of_readsCode hp, fetchItem_of_readsCode hp']
  generalize hf : fetchCode s = x, fetchCode s' = x' at hx
  cases hx with
  | ok i ht =>
    obtain ⟨hpu, hadm⟩ := admits_of_fetchCode hp hf
    exact exec_alike hpu hadm ht
  | raised ht => exact NextAlike.next ht
  | stop f => exact NextAlike.fault f _

/-- Settles O48: the other state is alike, and every part of a code step keeps states alike. -/
theorem invalidEntriesAreNeverRead : Obligations.InvalidEntriesAreNeverRead := by
  intro s t nf m hr hp hn hm h
  have hs : Alike s { s with table := m } := by
    refine ⟨m, rfl, fun nf' hn' => ?_⟩
    obtain rfl : nf = nf' := Option.some.inj (hn.symm.trans hn')
    exact hm
  have hstep : NextAlike (step s) (step { s with table := m }) := by
    rw [step_of_readsCode hr hp, step_of_readsCode (s := { s with table := m }) hr hp]
    exact (runItem_alike hp hs).endStep
  obtain ⟨_, ht, m', rfl, hm'⟩ := hstep t h
  exact ⟨m', ht, hm'⟩

end Sys2Proof.Machine
end

section
/-! TAIL's result put to use, and the codes of a steady stream: LIT, REF and KWK end in what TAIL writes, and what a code
step has emitted is an expansion (R73, R79, R82 to R91). -/

namespace Sys2Proof.Machine

variable {s t : State} {nf : BitVec 17} {p c : Code} {fb : Byte}

/-! ## A code step that goes on in STEADY -/

/-- Settles O47: of the ends of a code step only a starting literal's, which expands to itself, and a steady code's, which
TAIL has made `oldcode`, lead to STEADY. -/
theorem steadyStepEmitsExpansion : Obligations.SteadyStepEmitsExpansion := by
  intro s t ⟨_, ⟨hstack, _⟩, _, _, _, _, _, hcode⟩ hr hp h hpt
  have hstep := codeStep_cases hr hp h
  cases codeEnd_of_codeStep hstep with
  | sourceError hf | endStream hf | corrupt _ _ _ _ hf => rw [hf] at hpt; cases hpt
  | literal x _ hf =>
    have hx : expand t.table x.toCode = some [x] := by rw [expand_literal _ (isLiteral_toCode x), low_toCode]
    exact ⟨x.toCode, x, [], congrArg State.oldcode hf, congrArg State.finchar hf, hx, congrArg State.out hf⟩
  | clear _ _ _ ho =>
    obtain ⟨hpc, _⟩ | ⟨_, _, hpf, _⟩ := ho
    · cases hpc.symm.trans hpt
    · cases hpf.symm.trans hpt
  | steady _ _ _ _ _ hph =>
    obtain ⟨nf, p, c, x, xs, hS⟩ := codeStep_steadyStep (hcode hp) hph hstack hstep hpt
    exact ⟨c, x, xs, hS.oldcode, hS.finchar, hS.expansion, hS.out⟩

/-! ## TAIL -/

/-- Without a realignment TAIL's result is one state (R88, R89). -/
theorem TailResult.eq_of_none (h : TailResult s nf p c fb t) (hr : s.realign = .none) :
    t = { s with
      table := learnedTable s nf p fb, nextFree := some (learnedNext s nf), oldcode := some c, finchar := some fb,
      nBits := if grows s nf = true then s.nBits + 1#5 else s.nBits } := by
  obtain ⟨hpos, hbuf, hoff, hgrp, hsrc, hin, hreq⟩ := h.still (.inl hr)
  obtain ⟨hst, hph, hstack, _⟩ | ⟨h8, _⟩ := h.outcome
  · rw [h.frame, h.table, h.nextFree, h.oldcode, h.finchar, h.nBits, hpos, hbuf, hoff, hgrp, hsrc, hin, hreq, hst, hph,
      hstack]
  · simp [hr] at h8

/-- TAIL leaves an empty stack empty, whether or not its skip meets the source's error (R88, R100). -/
theorem TailResult.stack_eq_nil (h : TailResult s nf p c fb t) (hs : s.stack = []) : t.stack = [] := by
  obtain ⟨_, _, hstack, _⟩ | ⟨_, _, _, _, _, hstack⟩ := h.outcome
  · exact hstack.trans hs
  · exact hstack

/-- TAIL completes after any bytes have gone out (R88). -/
theorem tail_completes (hn : s.nextFree = some nf) (ho : s.oldcode = some p) (hw : WidthOk s nf) (hs : s.stack = [])
    (c : Code) (fb : Byte) (bytes : List Byte) :
    ∃ t, (tail c fb { s with out := s.out ++ bytes, stack := [] }).toOutcome = .next t ∧
      TailResult { s with out := s.out ++ bytes } nf p c fb t ∧ t.stack = [] := by
  have hemit : { s with out := s.out ++ bytes, stack := [] } = { s with out := s.out ++ bytes } := by rw [← hs]
  obtain ⟨t, htail, hT, _⟩ := tail_cases (s := { s with out := s.out ++ bytes }) c fb ho hn hw.hasStorage
  exact ⟨t, by rw [hemit, htail], hT, hT.stack_eq_nil hs⟩

/-! ## EMIT_STACK, LIT, REF, KWK -/

/-- Settles O27: the law of EMIT_STACK, which is an induction on its loop. -/
theorem emitStackSendsTopFirst : Obligations.EmitStackSendsTopFirst := emitStack_eq

/-- Settles O20: TAIL's code has storage below capacity, so TAIL completes. -/
theorem literalCompletes : Obligations.LiteralCompletes := by
  intro v s oc nf ho hn hlo hmax
  obtain ⟨t, htail, hT, _⟩ := tail_cases (s := emit v s) v.toCode v ho hn fun hlt => hasStorage_of_lt hmax hlo hlt
  exact ⟨t, htail, hT⟩

/-- Settles O19: without a realignment the completed literal is one state. -/
theorem literalWithoutRealign : Obligations.LiteralWithoutRealign := by
  intro v s oc nf hr ho hn hlo hmax
  obtain ⟨t, hx, hT⟩ := literalCompletes v s oc nf ho hn hlo hmax
  rw [hx, hT.eq_of_none hr]
  simp only [grows_iff]
  rfl

/-- A valid code is below `next_free` (R15, R65). -/
theorem WidthOk.lt_of_valid (hw : WidthOk s nf) (hv : valid s.blockMode nf c = true) : c.toNat < nf.toNat := by
  have hff := firstFree_bounds s.blockMode
  have hge := hw.firstFree_le
  have := (valid_iff _ _ _).1 hv
  omega

/-- A code that fits the width is below the capacity (R14, R16). -/
theorem WidthOk.lt_capacity {n : Nat} (hw : WidthOk s nf) (hn : n < 2 ^ s.nBits.toNat) : n < 2 ^ s.maxBits.toNat := by
  obtain ⟨_, hle, _⟩ := hw
  exact hn.trans_le (Nat.pow_le_pow_right (by decide) hle)

/-- Settles O21: the walk puts the expansion on the stack, EMIT_STACK sends it, and TAIL completes. -/
theorem referenceEmitsExpansion : Obligations.ReferenceEmitsExpansion := by
  intro c s oc nf ho hn hw ht hv hs
  obtain ⟨x, xs, hx, hrun⟩ := execRef_eq_tail hn ht hv hs
  obtain ⟨t, htail, hT, hstack⟩ := tail_completes hn ho hw hs c x (x :: xs)
  exact ⟨x, xs, t, hx, hrun.trans htail, hT, hstack⟩

/-- Settles O22: the walk from `oldcode` goes on top of `finchar`, which is its first byte, and the code, being below
capacity, is the entry that LEARN writes. -/
theorem kwkEmitsAndLearnsItself : Obligations.KwkEmitsAndLearnsItself := by
  intro c s oc fc nf ho hf hn hw ht hvo hfc hs hc hfit
  have hlt : oc.toNat < nf.toNat := hw.lt_of_valid hvo
  have hcode : c.toNat < 65536 := c.isLt
  obtain ⟨x, xs, hx, hrun⟩ := execKwk_eq_tail c hn ht ho hf hvo (by omega) hs
  obtain rfl : x = fc := by simpa [firstByte, hx] using hfc
  obtain ⟨t, htail, hT, hstack⟩ := tail_completes hn ho hw hs c x (x :: xs ++ [x])
  refine ⟨x :: xs, t, hx, hrun.trans htail, by rw [List.append_assoc]; exact hT, hstack, ?_⟩
  rw [hT.table]
  exact expand_learnedTable_next x hw ht hvo hx hc (hc ▸ hw.lt_capacity hfit)

end Sys2Proof.Machine
end

section
/-! CLR, END, the literals that start a stream and the corrupt codes, each as the state it leaves (R79 to R83, R87, R90),
and the phases a step leads to (R94). -/

namespace Sys2Proof.Machine

/-! ## FIRST, PLIT and the corrupt codes -/

/-- Settles O13: FIRST and PLIT have one meaning, and it is this assignment. -/
theorem startLiteralEffect : Obligations.StartLiteralEffect := fun _ _ => ⟨rfl, rfl⟩

/-- A CorruptStreamError whose first bit is held latches it (R25, R100). -/
theorem raiseCorrupt_of_p0 {s : State} {p : Nat} (hp : s.p0 = some p) (st : Status) (c : Code) :
    raiseCorrupt st c s = { s with
      status := st, faultCode := some c, faultPos := some p, stack := [], phase := .fault } := by
  simp only [raiseCorrupt, raise, hp, Option.some_or]

/-- Settles O14: each corrupt kind raises with its own status. -/
theorem corruptCodesRaise : Obligations.CorruptCodesRaise := fun c _ _ hp =>
  ⟨congrArg _ (raiseCorrupt_of_p0 hp _ c), congrArg _ (raiseCorrupt_of_p0 hp _ c),
    congrArg _ (raiseCorrupt_of_p0 hp _ c)⟩

/-! ## CLR -/

/-- Settles O16: without a realignment CLR is its own writes. -/
theorem clearWithoutRealign : Obligations.ClearWithoutRealign := by
  intro s hr
  obtain ⟨_, he⟩ | ⟨h8, _⟩ := execClr_cases s
  · exact he
  · simp [hr] at h8

/-- Settles O17: the skip starts from CLR's writes, which leave the cursor and the input; it ends with the bits skipped, at
a clean end, or with the source's error, which alone is raised. -/
theorem clearUnderGroup8 : Obligations.ClearUnderGroup8 := by
  intro s hr h0 n left
  obtain ⟨hnone, _⟩ | ⟨_, a, t, hk, hend⟩ := execClr_cases s
  · simp [hr] at hnone
  have hf := hk.frame
  obtain ⟨⟨henough, hshort⟩, hok : a = .ok ↔ n ≤ left⟩ := hk.cursor h0
  have hcur : Skipped n s t := ⟨henough, hshort⟩
  obtain ⟨hnext, hbits, hold, hfin, hgrp⟩ : t.nextFree = some 257#17 ∧ t.nBits = 9#5 ∧ t.oldcode = none ∧
      t.finchar = none ∧ t.grpCnt = 0#3 := by rw [hf]; exact ⟨rfl, rfl, rfl, rfl, rfl⟩
  obtain ⟨ha, he⟩ | ⟨rfl, he⟩ := hend
  · have hkept : t.phase = .cleared ∧ t.status = s.status ∧ t.stack = s.stack := by rw [hf]; exact ⟨rfl, rfl, rfl⟩
    refine ⟨t, he, hnext, hbits, hold, hfin, hgrp, by rw [hf]; rfl, hcur, fun hle => ?_, fun hlt => ?_⟩
    · obtain ⟨hpos, _, hpend, _⟩ := hcur.enough hle
      obtain ⟨hph, hst, hsk⟩ := hkept
      exact ⟨hpos, hph, hst, hsk, hpend⟩
    · obtain ⟨hpos, hbuf, _⟩ := hcur.short hlt
      have hans : a = if ending s = .eos then .eos else .err := hk.answer_eq fun h => absurd (hok.1 h) hlt.not_ge
      exact ⟨hpos, hbuf, fun _ => hkept, fun herr => absurd (by simpa [herr] using hans) ha⟩
  · have hlt : left < n := Nat.not_le.1 fun hle => by cases hok.2 hle
    obtain ⟨hpos, hbuf, _⟩ := hcur.short hlt
    obtain ⟨_, _, herr : ending s = .err⟩ := hk.err rfl
    exact ⟨raise .errSourceIo none none t, he, hnext, hbits, hold, hfin, hgrp, by rw [hf]; rfl, ⟨henough, hshort⟩,
      fun hle => absurd hle hlt.not_ge, fun _ => ⟨hpos, hbuf, fun heos => by simp [herr] at heos,
        fun _ => ⟨rfl, rfl, rfl⟩⟩⟩

/-! ## The phases -/

/-- Settles O3: DONE and FAULT have no step. -/
theorem terminalPhasesHoldEverything : Obligations.TerminalPhasesHoldEverything := fun _ => step_of_terminal

theorem HeaderEnd.phase {s t : State} (h : HeaderEnd s t) : t.phase = .awaitFirst ∨ t.phase = .fault := by
  cases h with
  | rejected _ _ _ hf => exact .inr (congrArg State.phase hf)
  | accepted _ _ _ hf => exact .inl (congrArg State.phase hf)

/-- Where a code step leads: CLEARED only from the phases that follow a first code (R51, R94). -/
theorem CodeEnd.phase {s t : State} (h : CodeEnd s t) :
    t.phase = .steady ∨ (t.phase = .cleared ∧ (s.phase = .steady ∨ s.phase = .cleared)) ∨ t.phase = .done ∨
      t.phase = .fault := by
  cases h with
  | sourceError hf | corrupt _ _ _ _ hf => exact .inr (.inr (.inr (congrArg State.phase hf)))
  | endStream hf => exact .inr (.inr (.inl (congrArg State.phase hf)))
  | literal _ _ hf => exact .inl (congrArg State.phase hf)
  | clear _ hp _ ho =>
    obtain ⟨hph, _⟩ | ⟨_, _, hph, _⟩ := ho
    · exact .inr (.inl ⟨hph, hp⟩)
    · exact .inr (.inr (.inr hph))
  | steady _ _ _ _ _ hp _ _ _ _ he =>
    obtain ⟨hph, _⟩ | ⟨_, _, hph, _⟩ := he
    · exact .inl (hph.trans hp)
    · exact .inr (.inr (.inr hph))

/-- Settles O49: the header, a terminal phase and a code each have their own exits. -/
theorem phaseTransitions : Obligations.PhaseTransitions := by
  intro s t hr h
  obtain ⟨hrst, _⟩ | ⟨_, ⟨hp, hhdr⟩ | ⟨hp, rfl⟩ | ⟨hp, hcode⟩⟩ := step_phase_cases h
  · simp [hr] at hrst
  · obtain ⟨u, hu, rfl⟩ := hdrStep_end hp hhdr
    simp [hp, hu.phase]
  · rcases hp with hp | hp <;> simp [hp]
  · have hto := (codeEnd_of_codeStep hcode).phase
    cases hph : s.phase with
    | header | done | fault => simp [hph, Phase.readsCode] at hp
    | awaitFirst | steady | cleared => simpa [hph] using hto

end Sys2Proof.Machine
end

section
/-! The header's items and the header step, each as the state it leaves (R74 to R77, R100, R101). -/

namespace Sys2Proof.Machine

variable {n : Nat} {s : State} {x b b0 b1 b2 : Byte} {rest : List Byte}

/-- Settles O7: each item's meaning, its constants written as numbers. -/
theorem headerItemsEffect : Obligations.HeaderItemsEffect := by
  refine ⟨fun _ _ => rfl, fun _ _ => rfl, fun s a b block rsvd maxbits h0 h1 => ?_⟩
  simp only [exec, execHdrCtl, raise, h0, h1]
  split
  · rfl
  · split
    · rfl
    · rfl

/-! ## One turn of the header's loop -/

/-- A byte of the header is decoded by its position, and its meaning is run (R75 to R77). -/
theorem runItem_header_byte (hp : s.phase = .header) (ho : s.src ≠ .eos) (hi : s.input = b :: rest) :
    runItem s = exec (decodeHeader (hdrPos s) b) { s with input := rest, requests := s.requests + 1 } := by
  obtain ⟨_, hbyte, _⟩ := sourceAnswersInOrder s
  simp only [runItem, fetchItem, hp, fetchHeader, hdrFetch, hbyte b rest ho hi]
  rfl

/-- HDR.M0's turn holds its byte (R75). -/
theorem hdrItems_m0 (hp : s.phase = .header) (ho : s.src ≠ .eos) (h0 : s.h0 = none) (hi : s.input = b :: rest) :
    hdrItems (n + 1) s = hdrItems n { s with h0 := some b, input := rest, requests := s.requests + 1 } := by
  have hpos : hdrPos s = .m0 := by simp only [hdrPos, h0]
  rw [hdrItems, runItem_header_byte hp ho hi, hpos]
  exact if_pos hp

/-- HDR.M1's turn holds its byte (R76). -/
theorem hdrItems_m1 (hp : s.phase = .header) (ho : s.src ≠ .eos) (h0 : s.h0 = some x) (h1 : s.h1 = none)
    (hi : s.input = b :: rest) :
    hdrItems (n + 1) s = hdrItems n { s with h1 := some b, input := rest, requests := s.requests + 1 } := by
  have hpos : hdrPos s = .m1 := by simp only [hdrPos, h0, h1]
  rw [hdrItems, runItem_header_byte hp ho hi, hpos]
  exact if_pos hp

/-- The first two turns hold the two magic bytes (R75, R76). -/
theorem hdrItems_m0_m1 (hp : s.phase = .header) (ho : s.src ≠ .eos) (h0 : s.h0 = none) (h1 : s.h1 = none)
    (hi : s.input = b0 :: b1 :: rest) :
    hdrItems (n + 2) s =
      hdrItems n { s with h0 := some b0, h1 := some b1, input := rest, requests := s.requests + 2 } := by
  rw [hdrItems_m0 hp ho h0 hi]
  exact hdrItems_m1 hp ho rfl h1 rfl

/-- HDR.CTL's turn is the last: its meaning ends the header (R77). -/
theorem hdrItems_ctl {y : Byte} (hp : s.phase = .header) (ho : s.src ≠ .eos) (h0 : s.h0 = some x) (h1 : s.h1 = some y)
    (hi : s.input = b :: rest) :
    hdrItems (n + 1) s = exec (decodeCtl b) { s with input := rest, requests := s.requests + 1 } := by
  have hpos : hdrPos s = .ctl := by simp only [hdrPos, h0, h1]
  obtain ⟨t, ht⟩ := execHdrCtl_next (s := { s with input := rest, requests := s.requests + 1 }) h0 h1 (b.getLsbD 7)
    (b.extractLsb' 5 2) (b.extractLsb' 0 5)
  have hctl : exec (decodeCtl b) { s with input := rest, requests := s.requests + 1 } = .next t := ht
  rw [hdrItems, runItem_header_byte hp ho hi, hpos, decodeHeader, hctl]
  exact if_neg (execHdrCtl_end ht).phase_ne_header

/-- A turn that finds the input at its end takes the exception of the terminator's class (R75 to R77, R101). -/
theorem hdrItems_ended (hp : s.phase = .header) (ho : s.src ≠ .eos) (hi : s.input = []) :
    (s.term = .eos → hdrItems (n + 1) s =
      .next (raise .errFormatShort none none { s with src := .eos, requests := s.requests + 1 })) ∧
    (s.term = .err → hdrItems (n + 1) s =
      .next (raise .errSourceIo none none { s with src := .err, requests := s.requests + 1 })) := by
  obtain ⟨_, _, heos, herr⟩ := sourceAnswersInOrder s
  refine ⟨fun ht => ?_, fun ht => ?_⟩
  · simp only [hdrItems, runItem, fetchItem, hp, fetchHeader, hdrFetch, heos ho hi ht]
    rfl
  · simp only [hdrItems, runItem, fetchItem, hp, fetchHeader, hdrFetch, herr ho hi ht]
    rfl

/-! ## The header step -/

/-- With three bytes there, the step runs HDR.CTL with the first two held (R74). -/
theorem step_header_of_three_bytes (hr : s.rst = false) (hp : s.phase = .header) (ho : s.src ≠ .eos)
    (h0 : s.h0 = none) (h1 : s.h1 = none) (hi : s.input = b0 :: b1 :: b2 :: rest) :
    step s = endStep (exec (decodeCtl b2)
      { s with h0 := some b0, h1 := some b1, input := rest, requests := s.requests + 3 }) := by
  rw [step_of_header hr hp, hdrStep, Config.hdrLen, hdrItems_m0_m1 hp ho h0 h1 hi]
  exact congrArg endStep (hdrItems_ctl hp ho rfl rfl rfl)

/-- The header step with three bytes there, as HDR.CTL's judgement of them (R77, R101). -/
theorem step_header_judged (hr : s.rst = false) (hp : s.phase = .header) (ho : s.src ≠ .eos)
    (h0 : s.h0 = none) (h1 : s.h1 = none) (hi : s.input = b0 :: b1 :: b2 :: rest) :
    step s = .next (
      if b0 ≠ 0x1F#8 ∨ b1 ≠ 0x9D#8 then { s with
        input := rest, requests := s.requests + 3, status := .errFormatMagic, stack := [], phase := .fault, p0 := none }
      else if (b2.extractLsb' 0 5).toNat < 9 ∨ 16 < (b2.extractLsb' 0 5).toNat then { s with
        input := rest, requests := s.requests + 3, maxBits := b2.extractLsb' 0 5, blockMode := b2.getLsbD 7,
        status := .errFormatMaxbits, stack := [], phase := .fault, p0 := none }
      else { s with
        input := rest, requests := s.requests + 3, maxBits := b2.extractLsb' 0 5, blockMode := b2.getLsbD 7,
        nextFree := some (if b2.getLsbD 7 then 257#17 else 256#17), nBits := 9#5, oldcode := none, finchar := none,
        pos := 0, buf := [], bitOff := 0#3, grpCnt := 0#3, phase := .awaitFirst, p0 := none }) := by
  obtain ⟨_, _, hctl⟩ := headerItemsEffect
  rw [step_header_of_three_bytes hr hp ho h0 h1 hi, decodeCtl, hctl _ b0 b1 _ _ _ rfl rfl, endStep, dropWork]
  congr 1
  split
  · simp only [h0, h1]
  · split
    · simp only [h0, h1]
    · simp only [h0, h1]

/-- Settles O4: the judgement's last case. -/
theorem headerAccepted : Obligations.HeaderAccepted := by
  intro s h2 rest hr hp ho h0 h1 hi hlo hhi
  rw [step_header_judged hr hp ho h0 h1 hi, if_neg (by simp), if_neg (by omega)]

/-- Settles O5: the judgement's first two cases. -/
theorem headerRejected : Obligations.HeaderRejected := by
  intro s b0 b1 b2 rest hr hp ho h0 h1 hi
  rw [step_header_judged hr hp ho h0 h1 hi]
  refine ⟨fun hm => by rw [if_pos hm], fun hm0 hm1 hb => ?_⟩
  rw [if_neg (by simp [hm0, hm1]), if_pos hb]

/-- Where fewer than three bytes are there, they are held and the next turn finds the input at its end. -/
theorem hdrItems_reaches_end (hp : s.phase = .header) (ho : s.src ≠ .eos) (h0 : s.h0 = none) (h1 : s.h1 = none)
    (hlen : s.input.length < 3) :
    ∃ n u, hdrItems Config.hdrLen s = hdrItems (n + 1) u ∧
      u = { s with h0 := u.h0, h1 := u.h1, input := [], requests := s.requests + s.input.length } := by
  match hi : s.input, hlen with
  | [], _ => exact ⟨2, { s with input := [] }, by rw [← hi], rfl⟩
  | [b0], _ => exact ⟨1, _, hdrItems_m0 hp ho h0 hi, rfl⟩
  | [b0, b1], _ => exact ⟨0, _, hdrItems_m0_m1 hp ho h0 h1 hi, rfl⟩

/-- Settles O6: the turn that finds the end raises by the terminator, and the bytes held are dropped. -/
theorem headerCutShort : Obligations.HeaderCutShort := by
  intro s hr hp ho h0 h1 hlen
  obtain ⟨n, u, hrun, hu⟩ := hdrItems_reaches_end hp ho h0 h1 hlen
  generalize u.h0 = x, u.h1 = y at hu
  subst hu
  obtain ⟨heos, herr⟩ := hdrItems_ended (n := n)
    (s := { s with h0 := x, h1 := y, input := [], requests := s.requests + s.input.length }) hp ho rfl
  rw [step_of_header hr hp, hdrStep, hrun]
  refine ⟨fun ht => ?_, fun ht => ?_⟩
  · rw [heos ht]
    simp only [endStep, dropWork, raise, h0, h1]
    rfl
  · rw [herr ht]
    simp only [endStep, dropWork, raise, h0, h1]
    rfl

end Sys2Proof.Machine
end

section
/-! The read of a code step: a whole code, whose row is run, or the end of the input, by its terminator (R58, R61, R62, R74,
R78, R90, R102). -/

namespace Sys2Proof.Machine

variable {w : Nat} {s t : State} {a : FetchAns} {taken : List Byte}

/-! ## The end of the input -/

/-- `s` once a read has met the end of the input: every byte left is buffered, and the source has answered its terminator,
which after `Eos` it is not asked for again (R36, R58). -/
def drained (s : State) : State :=
  { s with
    buf := pending s
    input := if s.src = .eos then s.input else []
    requests := if s.src = .eos then s.requests else s.requests + s.input.length + 1
    src := if ending s = .eos then .eos else .err }

/-- A fetch loop that is short of bits leaves the drained state, and answers the terminator (R58). -/
theorem FillResult.eq_drained (h : FillResult w s a t taken) (ha : a ≠ .ok) :
    t = drained s ∧ a = if ending s = .eos then .eos else .err := by
  have hin := h.taken_input
  have hf : t = { s with buf := pending s, input := t.input, src := t.src, requests := t.requests } := by
    rw [← h.buf_eq_pending ha]
    exact h.frame.trans (by rw [h.frame])
  cases a with
  | ok => exact absurd rfl ha
  | eos =>
    obtain ⟨_, hsrc, hopen, hend, hreq⟩ := h.eos rfl
    refine ⟨?_, by rw [if_pos hend]⟩
    by_cases hs : s.src = .eos
    · have hnone := h.taken_open hs
      rw [hf, drained, hsrc, hreq]
      simp [hs, hend, hin, hnone]
    · have hnil : t.input = [] := hopen.resolve_left hs
      rw [hf, drained, hsrc, hreq]
      simp [hs, hend, hin, hnil]
  | err =>
    obtain ⟨_, hs, hsrc, hnil, hend, hreq⟩ := h.err rfl
    refine ⟨?_, by rw [hend, if_neg (by decide)]⟩
    rw [hf, drained, hsrc, hreq]
    simp [hs, hend, hin, hnil]

/-- A read that needs more bits than are left selects END at a clean end, and takes the source's error (R78). -/
theorem fetchCode_short (hw : (decodeCtx s).widthOk = true)
    (hshort : 8 * (pending s).length < s.bitOff.toNat + s.nBits.toNat) :
    (ending s = .eos → fetchCode s = .ok .endStream (drained { s with p0 := some s.pos })) ∧
    (ending s = .err →
      fetchCode s = .raised (raise .errSourceIo none none (drained { s with p0 := some s.pos }))) := by
  have h9 := (widthOk_bounds hw).1
  obtain ⟨a, t, taken, hf, hc⟩ := fetchCode_cases hw
  have ha : a ≠ .ok := fun h => absurd ((hf.ok_iff (by omega)).1 h) (Nat.not_le.2 hshort)
  obtain ⟨rfl, hans : a = if ending s = .eos then .eos else .err⟩ := hf.eq_drained ha
  obtain ⟨rfl, hc⟩ | ⟨rfl, hc⟩ | ⟨h, _⟩ := hc
  · exact ⟨fun heos => by simp [heos] at hans, fun _ => hc⟩
  · exact ⟨fun _ => hc, fun herr => by simp [herr] at hans⟩
  · exact absurd h ha

/-- The truncated-tail test (R61). -/
theorem eosCheck_iff (s : State) :
    eosCheck s = true ↔ 1 < s.buf.length ∨ ∃ b, s.buf = [b] ∧ b >>> s.bitOff.toNat ≠ 0#8 := by
  unfold eosCheck
  split
  · next h => simp [h]
  · next b h => simp [h]
  · next x y rest h => simp [h]

/-- Settles O18: END writes the test's result, and the outcome by it. -/
theorem endEffect : Obligations.EndEffect := by
  intro s stray
  refine ⟨fun h => ?_, fun h => ?_⟩
  · have ht : eosCheck s = true := (eosCheck_iff s).2 h
    simp only [exec, execEndStream, ht, if_true]
  · have ht : eosCheck s = false := Bool.eq_false_iff.2 fun ht => h ((eosCheck_iff s).1 ht)
    simp [exec, execEndStream, ht]

/-! ## The step -/

theorem step_of_fetchCode_ok {i : Instr} (hr : s.rst = false) (hp : s.phase.readsCode = true)
    (h : fetchCode s = .ok i t) : step s = endStep (exec i t) := by
  rw [step_of_readsCode hr hp, runItem, fetchItem_of_readsCode hp, h]

theorem step_of_fetchCode_raised (hr : s.rst = false) (hp : s.phase.readsCode = true) (h : fetchCode s = .raised t) :
    step s = .next (dropWork t) := by
  rw [step_of_readsCode hr hp, runItem, fetchItem_of_readsCode hp, h]
  rfl

/-- Settles O54: the read leaves the drained state, where SourceIOError is taken or END runs. -/
theorem codeCutShort : Obligations.CodeCutShort := by
  intro s hr hp h9 h16 hshort stray
  obtain ⟨hclean, hfail⟩ := fetchCode_short (widthOk_iff.2 ⟨h9, h16⟩) hshort
  refine ⟨fun herr => ?_, fun heos => ?_⟩
  · have hs : s.src ≠ .eos := fun h => by simp [ending, h] at herr
    have hend : ending { s with p0 := some s.pos } = .err := herr
    rw [step_of_fetchCode_raised hr hp (hfail herr)]
    simp only [dropWork, raise, drained, hend, hs, if_false, reduceCtorEq]
    rfl
  · have hend : ending { s with p0 := some s.pos } = .eos := heos
    obtain ⟨hwarn, hok⟩ := endEffect (drained { s with p0 := some s.pos })
    rw [step_of_fetchCode_ok hr hp (hclean heos)]
    by_cases h : stray
    · rw [hwarn h]
      simp only [endStep, dropWork, drained, hend, if_true, if_pos h, decide_eq_true h]
      rfl
    · rw [hok h]
      simp only [endStep, dropWork, drained, hend, if_true, if_neg h, decide_eq_false h]
      rfl

/-! ## A whole code -/

/-- The bytes that follow a code's do not change its value (R49, R58). -/
theorem codeValue_append {off : Nat} {xs : List Byte} (ys : List Byte) (hw : w ≤ 16) (ho : off < 8)
    (h : off + w ≤ 8 * xs.length) : codeValue w off (xs ++ ys) = codeValue w off xs := by
  apply BitVec.eq_of_toNat_eq
  have hall := codeValue_eq_bitsValue (xs := xs ++ ys) [] hw ho (by rw [List.length_append]; omega)
  rw [List.append_nil] at hall
  rw [hall, codeValue_eq_bitsValue ys hw ho h]

/-- A read that finds a whole code fetches the row of its value, with the cursor after it and `p0` before it (R78). -/
theorem fetchCode_code {i : Instr} (hw : (decodeCtx s).widthOk = true)
    (hlong : s.bitOff.toNat + s.nBits.toNat ≤ 8 * (pending s).length)
    (hi : classify (decodeCtx s) (codeValue s.nBits.toNat s.bitOff.toNat (pending s)) = .ok i) :
    ∃ u, fetchCode s = .ok i u ∧ CodeFetched s u := by
  obtain ⟨h9, h16⟩ := widthOk_bounds hw
  obtain ⟨a, t, taken, hf, hc⟩ := fetchCode_cases hw
  have ha : a = .ok := (hf.ok_iff (by omega)).2 hlong
  obtain ⟨rfl, _⟩ | ⟨rfl, _⟩ | ⟨_, c, rfl, hc⟩ := hc
  · cases ha
  · cases ha
  subst ha
  have hu := codeFetched_of_fill hf h16
  have hbits : s.bitOff.toNat + s.nBits.toNat ≤ 8 * t.buf.length := by
    have hav := (hf.ok rfl).1
    have hoff : t.bitOff = s.bitOff := hf.bitOff_eq
    rw [avail_eq, hoff] at hav
    omega
  have hpend : pending s = t.buf ++ (if s.src = .eos then [] else t.input) := hf.pending_eq
  rw [hpend, codeValue_append _ h16 s.bitOff.isLt hbits] at hi
  refine ⟨_, ?_, hu⟩
  rw [hc, decodeCtx_fetched hu, hi]

theorem CodeFetched.readerFrame (h : CodeFetched s t) : ReaderFrame { s with p0 := some s.pos } t := by
  unfold ReaderFrame
  rw [h.frame]

/-- The decoder's test for the end compares the bits left as the reader does (R55, R62). -/
theorem availBits_lt_iff {bytes : List Byte} {off : Nat} (hw : 0 < w) :
    availBits bytes off < w ↔ 8 * bytes.length < off + w := by
  unfold availBits
  omega

/-- No code is END (R51). -/
theorem classify_ne_endStream {ctx : DecodeCtx} {c : Code} {i : Instr} (hfit : ctx.fits c = true)
    (h : classify ctx c = .ok i) : i ≠ .endStream := by
  rintro rfl
  cases (admits_of_classify hfit h).2

/-- Settles O12: a code's item is END where the input is short of bits, and else the row of the value that the read cuts
out; the header's three items are the three bytes at their positions. -/
theorem stepRunsDecodedInstruction : Obligations.StepRunsDecodedInstruction := by
  refine ⟨fun s i hr hp hw hd hend => ?_, fun s b0 b1 b2 rest hr hp ho h0 h1 hi => ?_⟩
  · obtain ⟨h9, h16⟩ := widthOk_bounds hw
    have htest : availBits (pending s) s.bitOff.toNat < s.nBits.toNat ↔ _ := availBits_lt_iff (by omega)
    rw [decode_of_readsCode hp hw] at hd
    split at hd
    · next hshort =>
      obtain rfl := Except.ok.inj hd
      have hf := (fetchCode_short hw (htest.1 hshort)).1 (hend rfl)
      exact ⟨_, (fetchItem_of_readsCode hp).trans hf, step_of_fetchCode_ok hr hp hf, rfl, rfl, fun h => absurd rfl h,
        fun _ => ⟨rfl, rfl, rfl⟩⟩
    · next hlong =>
      have hlong := Nat.not_lt.1 (htest.not.1 hlong)
      obtain ⟨u, hf, hu⟩ := fetchCode_code hw hlong hd
      have hne := classify_ne_endStream (fits_iff.2 (codeValue_lt _ _ _ h16)) hd
      exact ⟨u, (fetchItem_of_readsCode hp).trans hf, step_of_fetchCode_ok hr hp hf, by rw [hu.frame], hu.readerFrame,
        fun _ => by rw [hu.frame], fun h => absurd h hne⟩
  · have hpos : hdrPos s = .m0 := by simp only [hdrPos, h0]
    refine ⟨?_, ?_, decodeCtl b2, ?_, step_header_of_three_bytes hr hp ho h0 h1 hi⟩
    · simp [decode, decodeCtx, hp, hi, hpos, decodeHeader]
    · simp [decode, decodeCtx, hp, decodeHeader]
    · simp [decode, decodeCtx, hp, decodeHeader]

end Sys2Proof.Machine
end

section
/-! SourceIOError met by a code step (R97, R100, R102, R104): the code's read meets it, or the skip of a realignment. -/

namespace Sys2Proof.Machine

/-- Settles O51: from RUNNING, only the read of a code and the skip after a CLEAR or a growth end with this status. None of
them writes the latches or `warn_trunc`; the read consumes, emits and learns nothing, and the skips need GROUP8. -/
theorem sourceErrorIsPrecise : Obligations.SourceErrorIsPrecise := by
  intro s t hr hp hrun h hio
  have hsame : t.status ≠ s.status := by rw [hio, hrun]; decide
  have notNone (h8 : s.realign = .group8) : s.realign ≠ .none := by rw [h8]; decide
  cases codeEnd_of_codeStep (codeStep_cases hr hp h) with
  | sourceError hf hsrc hpos => rw [hf]; exact ⟨rfl, hsrc, rfl, rfl, rfl, fun _ => ⟨rfl, hpos, rfl, rfl, rfl, rfl, rfl⟩⟩
  | endStream _ hw => rcases hw with ⟨_, hst⟩ | ⟨_, hst⟩ <;> cases hst.symm.trans hio
  | literal _ _ hf => exact absurd (congrArg State.status hf) hsame
  | corrupt st _ hcor _ hf =>
    obtain rfl : st = .errSourceIo := (congrArg State.status hf).symm.trans hio
    simp [Status.corrupt] at hcor
  | clear _ _ hf ho =>
    rcases ho with ⟨_, hst, _⟩ | ⟨h8, hsrc, hph, _⟩
    · exact absurd hst hsame
    · refine ⟨hph, hsrc, ?_, ?_, ?_, fun hnone => absurd hnone (notNone h8)⟩ <;> rw [hf] <;> rfl
  | steady _ _ _ _ _ _ _ _ _ hf he =>
    rcases he with ⟨_, hst⟩ | ⟨h8, hsrc, hph, _⟩
    · exact absurd hst hsame
    · refine ⟨hph, hsrc, ?_, ?_, ?_, fun hnone => absurd hnone (notNone h8)⟩ <;> rw [hf] <;> rfl

end Sys2Proof.Machine
end

section
/-! The reset line (R29, R113): a step with the line at 1 is the hardware reset, from every state. -/

namespace Sys2Proof.Machine

/-- Settles O2: the step is `hwReset`, whose registers are those of the reset state and whose environment, with the line
itself, is the old state's. -/
theorem resetLineReturnsToReset : Obligations.ResetLineReturnsToReset := fun s hline =>
  ⟨hwReset s, step_of_rst hline, rfl, rfl, rfl, rfl, rfl, rfl, rfl, rfl, rfl, rfl, rfl, rfl, rfl, rfl, rfl, rfl, rfl,
    rfl, rfl, rfl, rfl, rfl, hline⟩

end Sys2Proof.Machine
end
